-- ==== Sys2Proof/Word.lean ====
section
/-! DEFINITION. The word and byte types of FXC: every register and bus data word is 32 bits
(00_scope.md R7, REG_WIDTH), every byte of the raw buffer 8 bits (10_state.md R30). -/

namespace Sys2Proof

/-- A register or bus data word (00_scope.md R7). -/
abbrev Word := BitVec 32

/-- One byte of the raw buffer (10_state.md R30). -/
abbrev Byte := BitVec 8

/-- `enc32` of 00_scope.md R9: the 32-bit two's-complement pattern of an integer in
[-2^31, 2^31-1]. -/
def enc32 (z : Int) : Word := BitVec.ofInt 32 z

end Sys2Proof
end

