-- ==== Sys2Proof/Config.lean ====
section
/-! DEFINITION. The implementation parameters of FXC (00_scope.md R7): the two that vary, as a record
that State carries and no step changes (log entry 3), and the fixed ones, as constants. -/

namespace Sys2Proof

/-- `BYTE_ORDER` (00_scope.md R7): the order in which DECODE assembles a multi-byte value. -/
inductive ByteOrder where
  | LE
  | BE
  deriving DecidableEq, Repr

/-- The parameters the spec leaves to the implementation (93_implementation_defined.md P1, P2):
`byteOrder` is BYTE_ORDER, `base` is FXC_BASE, the host address of the window's first byte. -/
structure Params where
  byteOrder : ByteOrder
  base      : Nat
  deriving DecidableEq, Repr

/-- The parameters State.reset carries. BYTE_ORDER: the spec's default LE (R7). FXC_BASE:
DESIGN CHOICE 0, the spec leaves it OPEN (log entry 4); no statement rests on it. -/
def Config.default : Params := { byteOrder := .LE, base := 0 }

/-- The size of the host window in bytes (20_memory.md R50). -/
def Config.windowBytes : Nat := 256

/-- `RAW_BUF_BYTES` (00_scope.md R7). -/
def Config.rawBufBytes : Nat := 32

end Sys2Proof
end

