-- ==== Sys2Proof/Syntax.lean ====
section
/-! DEFINITION. The command set (30_encoding.md), one constructor for each of the ten legal words of
R83, the fields of a command word (R80), and what the host can present at the port (20_memory.md
R52, 70_reset_and_hazards.md R230). -/

namespace Sys2Proof

/-- FXC command set 1 (30_encoding.md R83). SEL, the only immediate field, is fixed by each row of the
opcode table, and every other operand comes from a fixed register (R85): no constructor has an
argument. -/
inductive Instr where
  | nop
  | f2x
  | x2f
  | decode
  | rdboundRawMin
  | rdboundRawMax
  | rdboundPctMin
  | rdboundPctMax
  | rdboundSiMin
  | rdboundSiMax
  deriving DecidableEq, Repr

/-- The three fields of a command word (30_encoding.md R80). -/
structure CommandFields where
  op  : BitVec 4
  sel : BitVec 3
  rsv : BitVec 25
  deriving DecidableEq, Repr

/-- The six bound properties, in the order of their selectors (30_encoding.md R82). -/
inductive BoundSel where
  | rawMin
  | rawMax
  | pctMin
  | pctMax
  | siMin
  | siMax
  deriving DecidableEq, Repr

/-- The four recognised formats (41_decoder.md R140). -/
inductive Format where
  | int8
  | int16
  | int32
  | float32
  deriving DecidableEq, Repr

/-- The width of a host access: 1, 2 or 4 bytes (20_memory.md R52). -/
inductive Width where
  | w8
  | w16
  | w32
  deriving DecidableEq, Repr

/-- What the host presents at the port, by host address: `HostWrite`, `HostRead` (20_memory.md R52) or
a reset (70_reset_and_hazards.md R230). -/
inductive HostEvent where
  | write (addr : Nat) (n : Width) (data : Word)
  | read (addr : Nat) (n : Width)
  | reset
  deriving DecidableEq, Repr

/-- What the port answers to an access (20_memory.md R53, R54). A read that gets a bus error carries a
data word as well (R53). -/
inductive BusResponse where
  | writeDone
  | writeError
  | readData (data : Word)
  | readError (data : Word)
  deriving DecidableEq, Repr

/-- The control registers of the window (10_state.md section 2). -/
inductive CtrlReg where
  | cmd
  | opa
  | opb
  | result
  | status
  | modeFmt
  | modeCount
  | modeDec
  | bound (k : BoundSel)
  deriving DecidableEq, Repr

end Sys2Proof
end

