-- ==== Sys2Proof/WellFormed.lean ====
section
/-! DEFINITION. What a well-formed command is. The checks stand on the fields of a word, `legal` of
30_encoding.md R84; an Instr has no argument that could be ill formed. The decoder does not use
these definitions: that it agrees with them is a statement. -/

namespace Sys2Proof

/-- The OP and SEL part of `legal` (30_encoding.md R84): SEL is 0 with OP 0x0 to 0x3, at most 5 with
OP 0x4, and OP 0x5 to 0xF is reserved. -/
def CommandFields.opSelLegal (f : CommandFields) : Bool :=
  (f.op.toNat ≤ 3 && f.sel == 0) || (f.op == 4 && f.sel.toNat ≤ 5)

/-- `legal` of 30_encoding.md R84, on the fields of the word. -/
def CommandFields.wellFormed (f : CommandFields) : Bool :=
  f.rsv == 0 && f.opSelLegal

/-- Every constructor of Instr stands for one legal word and carries no operand (30_encoding.md R83,
R85), so there is nothing in an Instr to check. -/
def Instr.wellFormed : Instr → Bool
  | .nop => true
  | .f2x => true
  | .x2f => true
  | .decode => true
  | .rdboundRawMin => true
  | .rdboundRawMax => true
  | .rdboundPctMin => true
  | .rdboundPctMax => true
  | .rdboundSiMin => true
  | .rdboundSiMax => true

end Sys2Proof
end

