-- ==== Sys2Proof/Decode.lean ====
section
/-! DEFINITION. The decoder of a command word (30_encoding.md R80 to R84), total on all 2^32 words, and
after it the encoder, written from the same tables. -/

namespace Sys2Proof

/-- The fields of a word (30_encoding.md R80): OP = w[3:0], SEL = w[6:4], RSV = w[31:7]. A command
word is read as it stands on the bus, with no byte reordering (20_memory.md R61). -/
def fieldsOf (w : Word) : CommandFields :=
  { op := w.extractLsb' 0 4, sel := w.extractLsb' 4 3, rsv := w.extractLsb' 7 25 }

/-- The bound selectors of RDBOUND (30_encoding.md R82); SEL 6 and SEL 7 are reserved. -/
def decodeSel (sel : BitVec 3) : Option Instr :=
  match sel.toNat with
  | 0 => some .rdboundRawMin
  | 1 => some .rdboundRawMax
  | 2 => some .rdboundPctMin
  | 3 => some .rdboundPctMax
  | 4 => some .rdboundSiMin
  | 5 => some .rdboundSiMax
  | _ => none

/-- A command without a selector: SEL must be 0 (30_encoding.md R80). -/
def decodePlain (sel : BitVec 3) (i : Instr) : Option Instr :=
  if sel = 0 then some i else none

/-- The opcode map (30_encoding.md R81); OP 0x5 to 0xF is reserved. -/
def decodeOp (op : BitVec 4) (sel : BitVec 3) : Option Instr :=
  match op.toNat with
  | 0 => decodePlain sel .nop
  | 1 => decodePlain sel .f2x
  | 2 => decodePlain sel .x2f
  | 3 => decodePlain sel .decode
  | 4 => decodeSel sel
  | _ => none

/-- The instruction a command word stands for, or none for an illegal word (30_encoding.md R84,
R87). -/
def decodeWord (w : Word) : Option Instr :=
  if (fieldsOf w).rsv = 0 then decodeOp (fieldsOf w).op (fieldsOf w).sel else none

/-- OP of an instruction (30_encoding.md R81). -/
def Instr.op : Instr → BitVec 4
  | .nop => 0x0
  | .f2x => 0x1
  | .x2f => 0x2
  | .decode => 0x3
  | .rdboundRawMin => 0x4
  | .rdboundRawMax => 0x4
  | .rdboundPctMin => 0x4
  | .rdboundPctMax => 0x4
  | .rdboundSiMin => 0x4
  | .rdboundSiMax => 0x4

/-- SEL of an instruction (30_encoding.md R82). -/
def Instr.sel : Instr → BitVec 3
  | .nop => 0
  | .f2x => 0
  | .x2f => 0
  | .decode => 0
  | .rdboundRawMin => 0
  | .rdboundRawMax => 1
  | .rdboundPctMin => 2
  | .rdboundPctMax => 3
  | .rdboundSiMin => 4
  | .rdboundSiMax => 5

/-- The command word of an instruction: RSV = 0, then SEL, then OP (30_encoding.md R80). -/
def encode (i : Instr) : Word := (0 : BitVec 25) ++ i.sel ++ i.op

/-- What the decoder reads from an instruction whose bits are `w`, of which the table gives the low
`nbits`; a command is never longer than one 32-bit word (30_encoding.md R80). -/
def decodeTableWord (nbits w : Nat) : Option Instr :=
  if nbits ≤ 32 then decodeWord (BitVec.ofNat 32 (w % 2 ^ nbits)) else none

end Sys2Proof
end

