-- ==== Sys2Proof/Machine/State.lean ====
section
/-! DEFINITION. The state of FXC (10_state.md R20), its parameters, what stands at its host port, and the
reasons a step can stop. Plain data throughout. -/

namespace Sys2Proof.Machine

/-- The six bound registers BOUND[0..5], each a Float32Bits held as opaque bits (10_state.md R29). -/
structure Bounds where
  rawMin : Word
  rawMax : Word
  pctMin : Word
  pctMax : Word
  siMin  : Word
  siMax  : Word
  deriving DecidableEq, Repr

/-- The raw buffer (10_state.md R30), as (index, byte) pairs with rising indexes below 32; a byte not
listed reads 0x00, the reset value, and no listed byte is 0x00 (`Memory.wf`; log entry 8). -/
abbrev Memory := List Host.Cell

/-- The error kinds a command can raise (60_exceptions.md R200). None of them stops the machine. -/
inductive CmdError where
  /-- DECODE of an index at or past COUNT (R202). -/
  | indexOutOfRange
  /-- DECODE with a format tag not one of the four (R203). -/
  | unsupportedFormat
  /-- A CMD write of a word that is not one of the ten legal words (R204). -/
  | illegalCommand
  deriving DecidableEq, Repr

/-- The reasons a step ends in a fault. -/
inductive Fault where
  /-- Raised by a step whose host access has an address outside FXC's 256-byte window (20_memory.md
  R50): such an access is not one of FXC's steps, and what answers it is the platform's choice
  (R51). Safe: the model stops where FXC is not even addressed. No instruction raises it
  (log entry 5). -/
  | outsideWindow
  deriving DecidableEq, Repr

/-- The reasons a step is refused. -/
inductive Refusal where
  /-- An instruction of the opcode table that has no meaning yet, by its mnemonic. No arm of `exec`
  answers it. Safe. -/
  | notModelled (mnemonic : String)
  deriving DecidableEq, Repr

/-- The whole state. `params` are the fixed parameters (00_scope.md R7; log entry 3). `cmd` to `buf` are
the record of 10_state.md R20, field for field. `port` and `response` are the model's own: the host
events still to come, oldest first, and the answer to the latest access (log entries 1, 2). -/
structure State where
  params   : Params
  cmd      : Word
  opa      : Word
  opb      : Word
  result   : Word
  err      : BitVec 4
  fmt      : BitVec 3
  count    : Fin 9
  dec      : Word
  bound    : Bounds
  buf      : Memory
  port     : List HostEvent
  response : Option BusResponse
  deriving DecidableEq, Repr

/-- BOUND[0..5] after reset: every bound reads +0.0 (70_reset_and_hazards.md R231). -/
def Bounds.reset : Bounds :=
  { rawMin := 0, rawMax := 0, pctMin := 0, pctMax := 0, siMin := 0, siMax := 0 }

/-- The state right after reset (70_reset_and_hazards.md R230, R231): every register 0, every buffer byte
0x00. No event is pending and no access has been answered (log entries 1, 2). -/
def State.reset : State :=
  { params := Config.default, cmd := 0, opa := 0, opb := 0, result := 0, err := 0, fmt := 0, count := 0,
    dec := 0, bound := Bounds.reset, buf := [], port := [], response := none }

end Sys2Proof.Machine
end

