-- ==== Sys2Proof/Machine/Flags.lean ====
section
/-! DEFINITION. STATUS.ERR, FXC's only condition code (10_state.md R25, R32): the code of each outcome and
the STATUS word the host reads. No saturation, overflow, inexact or NaN flag exists (R32). -/

namespace Sys2Proof.Machine

/-- The ERR code of a command that succeeds (60_exceptions.md R200). -/
def okCode : BitVec 4 := 0

/-- The ERR code of each error kind (60_exceptions.md R200). -/
def errCode : CmdError → BitVec 4
  | .indexOutOfRange => 1
  | .unsupportedFormat => 2
  | .illegalCommand => 3

/-- The STATUS word: ERR in bits 3:0, bits 31:4 hardwired to 0 (10_state.md R25). -/
def statusWord (err : BitVec 4) : Word := err.setWidth 32

end Sys2Proof.Machine
end

