-- ==== Sys2Proof/Machine/Ops.lean ====
section
/-! DEFINITION. The named operations over the buffer and the registers, and the two ways a command ends,
`finish` and `raise` (00_scope.md R10). FXC has no trap and no return from one (60_exceptions.md
R210): `raise` is all there is to taking an error. -/

namespace Sys2Proof.Machine

/-- What a buffer byte not listed reads as: 0x00, the reset value (10_state.md R30). -/
def unlistedByte : Byte := 0

/-- `buf[i]` (10_state.md R30). -/
def readByte : Memory → Nat → Byte
  | [], _ => unlistedByte
  | (a, b) :: m, i => if a = i then b else readByte m i

/-- Put a byte before a list whose indexes are higher, unless it is what an unlisted byte reads. -/
def consByte (i : Nat) (b : Byte) (m : Memory) : Memory :=
  if b = unlistedByte then m else (i, b) :: m

/-- `buf[i] <- b`, keeping the canonical form. -/
def writeByte : Memory → Nat → Byte → Memory
  | [], i, b => consByte i b []
  | (a, c) :: m, i, b =>
    if i < a then consByte i b ((a, c) :: m)
    else if i = a then consByte i b m
    else (a, c) :: writeByte m i b

/-- The indexes of a buffer rise strictly, start at `lo` or above, lie below RAW_BUF_BYTES, and no
listed byte is what an unlisted one reads. -/
def Memory.wfFrom : Nat → Memory → Bool
  | _, [] => true
  | lo, (a, b) :: m => decide (lo ≤ a) && decide (a < Config.rawBufBytes) && b != unlistedByte && Memory.wfFrom (a + 1) m

/-- The canonical form of the buffer (log entry 8). -/
def Memory.wf (m : Memory) : Bool := Memory.wfFrom 0 m

/-- `BufRead(off, n)` (00_scope.md R10): the bytes buf[off], ..., buf[off+n-1], first byte first. -/
def bufRead (m : Memory) (off : Nat) : Nat → List Byte
  | 0 => []
  | n + 1 => readByte m off :: bufRead m (off + 1) n

/-- `BufWrite(off, n, bytes)` (00_scope.md R10). -/
def bufWrite (m : Memory) (off : Nat) : List Byte → Memory
  | [] => m
  | b :: bs => bufWrite (writeByte m off b) (off + 1) bs

/-- The number a list of bytes stands for, first byte least significant. -/
def leValue : List Byte → Nat
  | [] => 0
  | b :: bs => b.toNat + 256 * leValue bs

/-- `assemble` (20_memory.md R60), as the number its bits stand for. -/
def assemble : ByteOrder → List Byte → Nat
  | .LE, bs => leValue bs
  | .BE, bs => leValue bs.reverse

/-- The bytes an access moves: 1, 2 or 4 (20_memory.md R52). -/
def widthBytes : Width → Nat
  | .w8 => 1
  | .w16 => 2
  | .w32 => 4

/-- The first `n` bytes of a bus data word from bit `lo` up: byte j travels in data bits [8j+7:8j]
(20_memory.md R56). -/
def laneBytes (data : Word) (lo : Nat) : Nat → List Byte
  | 0 => []
  | n + 1 => data.extractLsb' lo 8 :: laneBytes data (lo + 8) n

/-- The bus data word of a read: the bytes in little-endian lanes, the bits above them 0
(20_memory.md R56). -/
def laneWord (bs : List Byte) : Word := BitVec.ofNat 32 (leValue bs)

/-- BOUND[k] (10_state.md R29). -/
def Bounds.get (b : Bounds) : BoundSel → Word
  | .rawMin => b.rawMin
  | .rawMax => b.rawMax
  | .pctMin => b.pctMin
  | .pctMax => b.pctMax
  | .siMin => b.siMin
  | .siMax => b.siMax

/-- BOUND[k] <- v (10_state.md R29). -/
def Bounds.set (b : Bounds) (k : BoundSel) (v : Word) : Bounds :=
  match k with
  | .rawMin => { b with rawMin := v }
  | .rawMax => { b with rawMax := v }
  | .pctMin => { b with pctMin := v }
  | .pctMax => { b with pctMax := v }
  | .siMin => { b with siMin := v }
  | .siMax => { b with siMax := v }

/-- CMD <- v: all 32 bits, legal or not (10_state.md R21). -/
def State.setCmd (s : State) (v : Word) : State := { s with cmd := v }

/-- OPA <- v (10_state.md R22). -/
def State.setOpa (s : State) (v : Word) : State := { s with opa := v }

/-- OPB <- v (10_state.md R23). -/
def State.setOpb (s : State) (v : Word) : State := { s with opb := v }

/-- RESULT <- v (10_state.md R24). -/
def State.setResult (s : State) (v : Word) : State := { s with result := v }

/-- STATUS.ERR <- e (10_state.md R25). -/
def State.setErr (s : State) (e : BitVec 4) : State := { s with err := e }

/-- MODE_FMT <- v: stores v[2:0], ignores v[31:3] (10_state.md R26). -/
def State.setFmt (s : State) (v : Word) : State := { s with fmt := v.extractLsb' 0 3 }

/-- What a MODE_COUNT write stores: min(u(v), 8) (10_state.md R27). -/
def clampCount (v : Word) : Fin 9 := ⟨min v.toNat 8, by omega⟩

/-- MODE_COUNT <- v (10_state.md R27). -/
def State.setCount (s : State) (v : Word) : State := { s with count := clampCount v }

/-- MODE_DEC <- v (10_state.md R28). -/
def State.setDec (s : State) (v : Word) : State := { s with dec := v }

/-- BOUND[k] <- v (10_state.md R29). -/
def State.setBound (s : State) (k : BoundSel) (v : Word) : State := { s with bound := s.bound.set k v }

/-- Replace the raw buffer (10_state.md R30). -/
def State.setBuf (s : State) (m : Memory) : State := { s with buf := m }

/-- What is still to come at the port (log entry 1). -/
def State.setPort (s : State) (evs : List HostEvent) : State := { s with port := evs }

/-- The port's answer to the access being served (log entry 2). -/
def State.respond (s : State) (r : BusResponse) : State := { s with response := some r }

/-- `finish(v)` (00_scope.md R10): RESULT <- v and STATUS.ERR <- 0. -/
def finish (v : Word) (s : State) : Host.Outcome State Fault Refusal :=
  .next ((s.setResult v).setErr okCode)

/-- `raise e` (00_scope.md R10, 60_exceptions.md R205): STATUS.ERR <- the code of e, everything else
unchanged. -/
def raise (e : CmdError) (s : State) : Host.Outcome State Fault Refusal :=
  .next (s.setErr (errCode e))

/-- The reset event (70_reset_and_hazards.md R230): every register and every buffer byte to its reset
value. The parameters stay, and so do the host's events still to come (log entry 12). -/
def State.resetEvent (s : State) : State :=
  { State.reset with params := s.params, port := s.port }

end Sys2Proof.Machine
end

