-- ==== Sys2Proof/Machine/Operands.lean ====
section
/-! DEFINITION. The operand forms of the commands (30_encoding.md R85): each command names the reading it
uses of the registers it takes its operands from. -/

namespace Sys2Proof.Machine

/-- F2X's `bits : Float32Bits = OPA` (30_encoding.md R85). -/
def opBits (s : State) : Word := s.opa

/-- X2F's `value : i32 = s(OPA)` (30_encoding.md R85). -/
def opValue (s : State) : Int := s.opa.toInt

/-- DECODE's `index : u32 = u(OPA)` (30_encoding.md R85). -/
def opIndex (s : State) : Nat := s.opa.toNat

/-- F2X's and X2F's `decimals : u32 = u(OPB)` (30_encoding.md R85). -/
def opDecimals (s : State) : Nat := s.opb.toNat

/-- The active mode's `decimals = u(DEC)`, for DECODE and RDBOUND (30_encoding.md R85). -/
def modeDecimals (s : State) : Nat := s.dec.toNat

/-- RDBOUND's `stored_bits = BOUND[SEL]` (30_encoding.md R85). -/
def opBound (s : State) (k : BoundSel) : Word := s.bound.get k

end Sys2Proof.Machine
end

