-- ==== Sys2Proof/Machine/Control.lean ====
section
/-! DEFINITION. The control command, NOP (42_control.md). FXC has no branch, call, trap return or other
control transfer (R181). -/

namespace Sys2Proof.Machine

/-- NOP (42_control.md R180): STATUS.ERR <- 0, RESULT unchanged. -/
def execNop (s : State) : Host.Outcome State Fault Refusal := .next (s.setErr okCode)

end Sys2Proof.Machine
end

