-- ==== Sys2Proof/Machine/Codec.lean ====
section
/-! DEFINITION. The fixed-point codec (40_codec.md): `float_to_fixed` and `fixed_to_float` in exact
arithmetic, the finite datapaths of R109 and R128, and the meanings of F2X and X2F. -/

namespace Sys2Proof.Machine

/-- The sign bit S = b[31] (40_codec.md R100). -/
def floatSign (b : Word) : Bool := b.getLsbD 31

/-- The exponent field E = u(b[30:23]) (40_codec.md R100). -/
def floatExp (b : Word) : Nat := (b.extractLsb' 23 8).toNat

/-- The mantissa field F = u(b[22:0]) (40_codec.md R100). -/
def floatFrac (b : Word) : Nat := (b.extractLsb' 0 23).toNat

/-- M = (2^23 + F) * 10^d, exact (40_codec.md R104). -/
def scaledMantissa (b : Word) (d : Nat) : Nat := (2 ^ 23 + floatFrac b) * 10 ^ d

/-- floor((m + 2^(k-1)) / 2^k): a shift right by k, half rounded up (40_codec.md R105). -/
def roundShift (m k : Nat) : Nat := (m + 2 ^ (k - 1)) / 2 ^ k

/-- The magnitude of a normal input before the sign and the range (40_codec.md R105, R106). -/
def magnitude (b : Word) (d : Nat) : Nat :=
  if floatExp b < 150 then roundShift (scaledMantissa b d) (150 - floatExp b)
  else scaledMantissa b d * 2 ^ (floatExp b - 150)

/-- Sign and range: saturate to i32 (40_codec.md R107). -/
def saturate (negative : Bool) (mag : Nat) : Int :=
  if negative then max (-(mag : Int)) (-(2 ^ 31)) else min (mag : Int) (2 ^ 31 - 1)

/-- `float_to_fixed(b, d)` (40_codec.md R101), with exponent 0 (R102), exponent 255 (R103) and normal
inputs (R104 to R107). -/
def floatToFixed (b : Word) (d : Nat) : Int :=
  if floatExp b = 0 then 0
  else if floatExp b = 255 then (if floatSign b then -(2 ^ 31) else 2 ^ 31 - 1)
  else saturate (floatSign b) (magnitude b d)

/-- The finite datapath of float_to_fixed, with min(d, 48) in place of d (40_codec.md R109;
log entry 7). This is what the commands run, so that they can be evaluated for every d. -/
def floatToFixedDatapath (b : Word) (d : Nat) : Int := floatToFixed b (min d 48)

/-- The halving loop, at most `fuel` times (40_codec.md R124). -/
def halve : Nat → Nat → Nat → Nat × Nat
  | 0, q, e => (q, e)
  | fuel + 1, q, e => if 2 ^ 24 ≤ q then halve fuel (q / 2) (e + 1) else (q, e)

/-- The doubling loop, at most `fuel` times (40_codec.md R124). -/
def double : Nat → Nat → Nat → Nat × Nat
  | 0, q, e => (q, e)
  | fuel + 1, q, e => if q < 2 ^ 23 then double fuel (q * 2) (e - 1) else (q, e)

/-- Normalisation from exponent 127: the halvings, at most 31, then the doublings, at most 23
(40_codec.md R124; log entry 13). -/
def normalise (q : Nat) : Nat × Nat :=
  double 23 (halve 31 q 127).1 (halve 31 q 127).2

/-- S ++ e[7:0] ++ (q - 2^23)[22:0] (40_codec.md R125). -/
def packFloat (negative : Bool) (q e : Nat) : Word :=
  (BitVec.ofBool negative ++ BitVec.ofNat 8 e ++ BitVec.ofNat 23 (q - 2 ^ 23) : BitVec (1 + 8 + 23))

/-- q = floor((|v| << 23) / 10^d), exact (40_codec.md R122). -/
def fixedQuotient (v : Int) (d : Nat) : Nat := v.natAbs * 2 ^ 23 / 10 ^ d

/-- `fixed_to_float(v, d)` for v in the i32 range (40_codec.md R120 to R125). -/
def fixedToFloat (v : Int) (d : Nat) : Word :=
  if v = 0 then 0
  else if fixedQuotient v d = 0 then 0
  else packFloat (decide (v < 0)) (normalise (fixedQuotient v d)).1 (normalise (fixedQuotient v d)).2

/-- The finite datapath of fixed_to_float, with min(d, 17) in place of d (40_codec.md R128;
log entry 7). -/
def fixedToFloatDatapath (v : Int) (d : Nat) : Word := fixedToFloat v (min d 17)

/-- F2X (40_codec.md R110). -/
def execF2x (s : State) : Host.Outcome State Fault Refusal :=
  finish (enc32 (floatToFixedDatapath (opBits s) (opDecimals s))) s

/-- X2F (40_codec.md R130). -/
def execX2f (s : State) : Host.Outcome State Fault Refusal :=
  finish (fixedToFloatDatapath (opValue s) (opDecimals s)) s

end Sys2Proof.Machine
end

