-- ==== Sys2Proof/Machine/Decoder.lean ====
section
/-! DEFINITION. The mode value decoder (41_decoder.md): `decode_value`, the bound properties, and the
meanings of DECODE and of the six RDBOUND commands. -/

namespace Sys2Proof.Machine

/-- The format of a tag; the tags 4 to 7 are storable and not recognised (41_decoder.md R140). -/
def formatOf (fmt : BitVec 3) : Option Format :=
  match fmt.toNat with
  | 0 => some .int8
  | 1 => some .int16
  | 2 => some .int32
  | 3 => some .float32
  | _ => none

/-- The byte width of one data value (41_decoder.md R140). -/
def formatWidth : Format → Nat
  | .int8 => 1
  | .int16 => 2
  | .int32 => 4
  | .float32 => 4

/-- The value of data set `index` in each recognised format, from `width` bytes at `index * width`
(41_decoder.md R142 to R145). -/
def decodeFormat (order : ByteOrder) (dec : Nat) (m : Memory) (index : Nat) : Format → Int
  | .int8 => ((readByte m index).signExtend 32).toInt
  | .int16 => ((BitVec.ofNat 16 (assemble order (bufRead m (2 * index) 2))).signExtend 32).toInt
  | .int32 => (BitVec.ofNat 32 (assemble order (bufRead m (4 * index) 4))).toInt
  | .float32 => floatToFixed (BitVec.ofNat 32 (assemble order (bufRead m (4 * index) 4))) dec

/-- `decode_value` (41_decoder.md R141): the index check first, then the format dispatch. -/
def decodeValue (order : ByteOrder) (fmt : BitVec 3) (count dec : Nat) (m : Memory) (index : Nat) :
    Except CmdError Int :=
  if count ≤ index then .error .indexOutOfRange
  else
    match formatOf fmt with
    | none => .error .unsupportedFormat
    | some f => .ok (decodeFormat order dec m index f)

/-- DECODE (41_decoder.md R150). The Float32 arm runs the finite datapath of 40_codec.md R109: DEC is
read on that arm only, as min(DEC, 48) (log entry 7). -/
def execDecode (s : State) : Host.Outcome State Fault Refusal :=
  match decodeValue s.params.byteOrder s.fmt s.count.val (min (modeDecimals s) 48) s.buf (opIndex s) with
  | .error e => raise e s
  | .ok z => finish (enc32 z) s

/-- RDBOUND k (41_decoder.md R161): `finish(enc32(bound_value(k)))`, with `bound_value` of R160 computed
afresh (R162). -/
def rdbound (k : BoundSel) (s : State) : Host.Outcome State Fault Refusal :=
  finish (enc32 (floatToFixedDatapath (opBound s k) (modeDecimals s))) s

/-- RDBOUND raw_min (41_decoder.md R161, SEL 0). -/
def execRdboundRawMin (s : State) : Host.Outcome State Fault Refusal := rdbound .rawMin s

/-- RDBOUND raw_max (41_decoder.md R161, SEL 1). -/
def execRdboundRawMax (s : State) : Host.Outcome State Fault Refusal := rdbound .rawMax s

/-- RDBOUND pct_min (41_decoder.md R161, SEL 2). -/
def execRdboundPctMin (s : State) : Host.Outcome State Fault Refusal := rdbound .pctMin s

/-- RDBOUND pct_max (41_decoder.md R161, SEL 3). -/
def execRdboundPctMax (s : State) : Host.Outcome State Fault Refusal := rdbound .pctMax s

/-- RDBOUND si_min (41_decoder.md R161, SEL 4). -/
def execRdboundSiMin (s : State) : Host.Outcome State Fault Refusal := rdbound .siMin s

/-- RDBOUND si_max (41_decoder.md R161, SEL 5). -/
def execRdboundSiMax (s : State) : Host.Outcome State Fault Refusal := rdbound .siMax s

end Sys2Proof.Machine
end

