-- ==== Sys2Proof/Machine/Dispatch.lean ====
section
/-! DEFINITION. One arm per command (30_encoding.md R84, the case on the opcode). -/

namespace Sys2Proof.Machine

def exec (i : Instr) (s : State) : Host.Outcome State Fault Refusal :=
  match i with
  | .nop => Sys2Proof.Machine.execNop s
  | .f2x => Sys2Proof.Machine.execF2x s
  | .x2f => Sys2Proof.Machine.execX2f s
  | .decode => Sys2Proof.Machine.execDecode s
  | .rdboundRawMin => Sys2Proof.Machine.execRdboundRawMin s
  | .rdboundRawMax => Sys2Proof.Machine.execRdboundRawMax s
  | .rdboundPctMin => Sys2Proof.Machine.execRdboundPctMin s
  | .rdboundPctMax => Sys2Proof.Machine.execRdboundPctMax s
  | .rdboundSiMin => Sys2Proof.Machine.execRdboundSiMin s
  | .rdboundSiMax => Sys2Proof.Machine.execRdboundSiMax s

end Sys2Proof.Machine
end

