-- ==== Sys2Proof/Machine/Bus.lean ====
section
/-! DEFINITION. The host port (20_memory.md): the window, the address map, which accesses are admitted,
what a register or buffer access does, and the run of a command by a CMD write. -/

namespace Sys2Proof.Machine

/-- `off = addr - FXC_BASE`, for an address in the 256-byte window (20_memory.md R50). -/
def offsetOf (p : Params) (addr : Nat) : Option Nat :=
  if p.base ≤ addr ∧ addr < p.base + Config.windowBytes then some (addr - p.base) else none

/-- The control register at an offset (10_state.md section 2, 20_memory.md R51). -/
def ctrlRegAt (off : Nat) : Option CtrlReg :=
  match off with
  | 0x00 => some .cmd
  | 0x04 => some .opa
  | 0x08 => some .opb
  | 0x0C => some .result
  | 0x10 => some .status
  | 0x14 => some .modeFmt
  | 0x18 => some .modeCount
  | 0x1C => some .modeDec
  | 0x20 => some (.bound .rawMin)
  | 0x24 => some (.bound .rawMax)
  | 0x28 => some (.bound .pctMin)
  | 0x2C => some (.bound .pctMax)
  | 0x30 => some (.bound .siMin)
  | 0x34 => some (.bound .siMax)
  | _ => none

/-- The control register an access reaches: 32-bit accesses only (20_memory.md R52). -/
def regTarget (off : Nat) : Width → Option CtrlReg
  | .w8 => none
  | .w16 => none
  | .w32 => ctrlRegAt off

/-- The buffer index an access starts at, where R52 of 20_memory.md admits it: naturally aligned and
inside 0x40..0x5F. -/
def bufTarget (off : Nat) (n : Width) : Option Nat :=
  if off % widthBytes n = 0 ∧ 0x40 ≤ off ∧ off + widthBytes n ≤ 0x60 then some (off - 0x40) else none

/-- The value an admitted read of a control register returns (20_memory.md R54): reserved bits read as
0 (10_state.md R25 to R27). -/
def readReg (s : State) : CtrlReg → Word
  | .cmd => s.cmd
  | .opa => s.opa
  | .opb => s.opb
  | .result => s.result
  | .status => statusWord s.err
  | .modeFmt => s.fmt.setWidth 32
  | .modeCount => BitVec.ofNat 32 s.count.val
  | .modeDec => s.dec
  | .bound k => s.bound.get k

/-- The command part of a CMD write (30_encoding.md R84): CMD <- w, then the command w encodes, or
IllegalCommand. -/
def runCommand (w : Word) (s : State) : Host.Outcome State Fault Refusal :=
  match decodeWord w with
  | some i => exec i (s.setCmd w)
  | none => raise .illegalCommand (s.setCmd w)

/-- A 32-bit write to a control register (20_memory.md R54, R55; 10_state.md R21 to R29). A write to
RESULT or STATUS is a bus error. -/
def writeReg (r : CtrlReg) (v : Word) (s : State) : Host.Outcome State Fault Refusal :=
  match r with
  | .cmd => runCommand v (s.respond .writeDone)
  | .opa => .next ((s.setOpa v).respond .writeDone)
  | .opb => .next ((s.setOpb v).respond .writeDone)
  | .result => .next (s.respond .writeError)
  | .status => .next (s.respond .writeError)
  | .modeFmt => .next ((s.setFmt v).respond .writeDone)
  | .modeCount => .next ((s.setCount v).respond .writeDone)
  | .modeDec => .next ((s.setDec v).respond .writeDone)
  | .bound k => .next ((s.setBound k v).respond .writeDone)

/-- `HostWrite(off, n, data)` (20_memory.md R52 to R56). -/
def hostWrite (off : Nat) (n : Width) (data : Word) (s : State) : Host.Outcome State Fault Refusal :=
  match regTarget off n with
  | some r => writeReg r data s
  | none =>
    match bufTarget off n with
    | some i => .next ((s.setBuf (bufWrite s.buf i (laneBytes data 0 (widthBytes n)))).respond .writeDone)
    | none => .next (s.respond .writeError)

/-- The answer to `HostRead(off, n)` (20_memory.md R53, R54, R56). -/
def readResponse (off : Nat) (n : Width) (s : State) : BusResponse :=
  match regTarget off n with
  | some r => .readData (readReg s r)
  | none =>
    match bufTarget off n with
    | some i => .readData (laneWord (bufRead s.buf i (widthBytes n)))
    | none => .readError 0

/-- One event at the port (20_memory.md R63): a host access of the window, or a reset. -/
def serve (ev : HostEvent) (s : State) : Host.Outcome State Fault Refusal :=
  match ev with
  | .reset => .next s.resetEvent
  | .write addr n data =>
    match offsetOf s.params addr with
    | some off => hostWrite off n data s
    | none => .fault .outsideWindow
  | .read addr n =>
    match offsetOf s.params addr with
    | some off => .next (s.respond (readResponse off n s))
    | none => .fault .outsideWindow

/-- The write of CMD that asks for the command word `w` (30_encoding.md R80, R84). -/
def cmdWrite (p : Params) (w : Word) : HostEvent := .write p.base .w32 w

end Sys2Proof.Machine
end

