-- ==== Sys2Proof/Machine/Step.lean ====
section
/-! DEFINITION. One step: the first event at the port is served; with none pending nothing happens
(log entry 6). -/

namespace Sys2Proof.Machine

/-- One step of FXC in the order of the bus (20_memory.md R63). -/
def step (s : State) : Host.Outcome State Fault Refusal :=
  match s.port with
  | [] => .next s
  | ev :: rest => serve ev (s.setPort rest)

/-- The state in which the very next step runs the command word `w`: its CMD write stands before
everything pending at the port (log entry 10). -/
def State.withFetchWord (s : State) (nbits w : Nat) : State :=
  s.setPort (cmdWrite s.params (BitVec.ofNat 32 (w % 2 ^ nbits)) :: s.port)

end Sys2Proof.Machine
end

