-- ==== Sys2Proof/Machine/HostProgram.lean ====
section
/-! DEFINITION. The host's own notation (30_encoding.md R88, R89): each assembler form is one event at
the port, each pseudo-instruction the list of events it expands to. Offsets are taken from the window
base. -/

namespace Sys2Proof.Machine

/-- The offset of a control register in the window (10_state.md section 2, 30_encoding.md R88). -/
def ctrlOffset : CtrlReg → Nat
  | .cmd => 0x00
  | .opa => 0x04
  | .opb => 0x08
  | .result => 0x0C
  | .status => 0x10
  | .modeFmt => 0x14
  | .modeCount => 0x18
  | .modeDec => 0x1C
  | .bound .rawMin => 0x20
  | .bound .rawMax => 0x24
  | .bound .pctMin => 0x28
  | .bound .pctMax => 0x2C
  | .bound .siMin => 0x30
  | .bound .siMax => 0x34

/-- `w OFF, V` (R88), and with the other widths `wh OFF, V` and `wb OFF, V`. -/
def asmWrite (p : Params) (off : Nat) (n : Width) (v : Word) : HostEvent := .write (p.base + off) n v

/-- `r OFF` (R88), and with the other widths `rh OFF` and `rb OFF`. -/
def asmRead (p : Params) (off : Nat) (n : Width) : HostEvent := .read (p.base + off) n

/-- `w REG, V` for a register by name (R88). -/
def asmWriteReg (p : Params) (r : CtrlReg) (v : Word) : HostEvent := asmWrite p (ctrlOffset r) .w32 v

/-- `r REG` for a register by name (R88). -/
def asmReadReg (p : Params) (r : CtrlReg) : HostEvent := asmRead p (ctrlOffset r) .w32

/-- `nop`, `f2x`, `x2f`, `decode` and `rdbound <bound>`: `w CMD, <word>` (R88). -/
def asmCommand (p : Params) (i : Instr) : HostEvent := asmWriteReg p .cmd (encode i)

/-- `cvt.f2x BITS, D` (R89). -/
def cvtF2x (p : Params) (bits d : Word) : List HostEvent :=
  [asmWriteReg p .opa bits, asmWriteReg p .opb d, asmCommand p .f2x]

/-- `cvt.x2f VAL, D` (R89). -/
def cvtX2f (p : Params) (v : Int) (d : Word) : List HostEvent :=
  [asmWriteReg p .opa (enc32 v), asmWriteReg p .opb d, asmCommand p .x2f]

/-- `getval I` (R89). -/
def getval (p : Params) (i : Word) : List HostEvent := [asmWriteReg p .opa i, asmCommand p .decode]

/-- `setmode FMT, CNT, D` (R89). -/
def setmode (p : Params) (fmt cnt d : Word) : List HostEvent :=
  [asmWriteReg p .modeFmt fmt, asmWriteReg p .modeCount cnt, asmWriteReg p .modeDec d]

/-- `getres` (R89). -/
def getres (p : Params) : List HostEvent := [asmReadReg p .status, asmReadReg p .result]

end Sys2Proof.Machine
end

