-- ==== Sys2Proof/Safety.lean ====
section
/-! DEFINITION. What claims about FXC are stated with: the invariant of the machine, the accesses that
reach FXC at all, and the value of a float as an integer. -/

namespace Sys2Proof.Machine

/-- The invariant: the buffer has its canonical form with every index below 32, and ERR holds a code
that is written (60_exceptions.md R200: 4 to 15 never are). COUNT in 0..8 is in its type. -/
abbrev State.Inv (s : State) : Prop := Memory.wf s.buf = true ∧ s.err.toNat ≤ 3

/-- An address in FXC's window (20_memory.md R50). -/
abbrev InWindow (p : Params) (addr : Nat) : Prop :=
  p.base ≤ addr ∧ addr < p.base + Config.windowBytes

/-- An event that reaches FXC: a reset, or an access whose address lies in the window. -/
def Reaches (p : Params) : HostEvent → Prop
  | .reset => True
  | .write addr _ _ => InWindow p addr
  | .read addr _ => InWindow p addr

/-- An access that 20_memory.md R52 admits, said as that rule says it: 32 bits at a multiple of 4 in the
control registers, or naturally aligned and inside RAW_BUF. -/
abbrev Admitted (off n : Nat) : Prop :=
  (n = 4 ∧ off % 4 = 0 ∧ off < 0x38) ∨ (off % n = 0 ∧ 0x40 ≤ off ∧ off + n ≤ 0x60)

/-- The ten legal command words (30_encoding.md R83). -/
def legalWords : List Word := [0x00, 0x01, 0x02, 0x03, 0x04, 0x14, 0x24, 0x34, 0x44, 0x54]

/-- The registers of 10_state.md R20 that no command writes (R35): all but RESULT and ERR. With them go
the parameters and the port. Memory is compared byte by byte. -/
abbrev SameInputs (s t : State) : Prop :=
  t.cmd = s.cmd ∧ t.opa = s.opa ∧ t.opb = s.opb ∧ t.fmt = s.fmt ∧ t.count = s.count ∧ t.dec = s.dec ∧
  t.bound = s.bound ∧ (∀ a, readByte t.buf a = readByte s.buf a) ∧ t.params = s.params ∧
  t.port = s.port ∧ t.response = s.response

/-- The value of a finite float times 2^150, an integer: a normal float is (2^23 + F) * 2^(E-150)
(00_scope.md R12), a subnormal or zero F * 2^(1-150). PRESUMED for subnormals: the spec names
IEEE-754 (R13) and does not write their value (log entry 14). -/
def floatScaledValue (b : Word) : Int :=
  let m : Nat := if floatExp b = 0 then 2 * floatFrac b else (2 ^ 23 + floatFrac b) * 2 ^ floatExp b
  if floatSign b then -(m : Int) else m

end Sys2Proof.Machine
end

