-- ==== Sys2Proof/Certificates/Slice0/Obligations.lean ====
section
/-! DEFINITION. What is to be proved of FXC: one Prop for each entry of OBLIGATIONS.json. -/

open Sys2Proof Sys2Proof.Machine

/-! ### Encoding -/

/-- Decode and encode agree (30_encoding.md sections 1 to 3): every instruction's word decodes to it, and
no word decodes to an instruction but that instruction's own word. -/
def Obligations.DecodeIsTheInverseOfEncode : Prop :=
  (∀ i : Instr, i.wellFormed = true → decodeWord (encode i) = some i) ∧
  (∀ (w : Word) (i : Instr), decodeWord w = some i → w = encode i ∧ i.wellFormed = true)

/-- 30_encoding.md R83: the ten legal words, what each stands for, and every other word illegal. -/
def Obligations.LegalWordsAreExactlyTen : Prop :=
  decodeWord 0x00000000 = some .nop ∧ decodeWord 0x00000001 = some .f2x ∧
  decodeWord 0x00000002 = some .x2f ∧ decodeWord 0x00000003 = some .decode ∧
  decodeWord 0x00000004 = some .rdboundRawMin ∧ decodeWord 0x00000014 = some .rdboundRawMax ∧
  decodeWord 0x00000024 = some .rdboundPctMin ∧ decodeWord 0x00000034 = some .rdboundPctMax ∧
  decodeWord 0x00000044 = some .rdboundSiMin ∧ decodeWord 0x00000054 = some .rdboundSiMax ∧
  ∀ w : Word, decodeWord w = none ↔ w ∉ legalWords

/-- `legal(w)` of 30_encoding.md R84, on the bits of the word, is when the decoder answers, and it is the
well-formedness of the word's fields. -/
def Obligations.LegalityIsDecidedByTheFields : Prop :=
  ∀ w : Word,
    ((decodeWord w).isSome = true ↔
      w.extractLsb' 7 25 = 0 ∧
        (((w.extractLsb' 0 4).toNat ≤ 3 ∧ w.extractLsb' 4 3 = 0) ∨
          (w.extractLsb' 0 4 = 4 ∧ (w.extractLsb' 4 3).toNat ≤ 5))) ∧
    (fieldsOf w).wellFormed = (decodeWord w).isSome

/-- Words written out bit by bit from the format of 30_encoding.md R80 and the tables of R81, R82: one of
each family, and one illegal word of each kind of R87. -/
def Obligations.WrittenOutWordsDecode : Prop :=
  decodeWord 0b0000000000000000000000000_000_0000#32 = some .nop ∧
  decodeWord 0b0000000000000000000000000_000_0001#32 = some .f2x ∧
  decodeWord 0b0000000000000000000000000_000_0011#32 = some .decode ∧
  decodeWord 0b0000000000000000000000000_101_0100#32 = some .rdboundSiMax ∧
  decodeWord 0b0000000000000000000000000_000_0101#32 = none ∧
  decodeWord 0b0000000000000000000000000_001_0001#32 = none ∧
  decodeWord 0b0000000000000000000000000_110_0100#32 = none ∧
  decodeWord 0b0000000000000000000000001_000_0000#32 = none

/-! ### A step runs the decoded command -/

/-- A CMD write of a word that decodes to an instruction (30_encoding.md section 3): the step is `exec` of
that instruction, at the state in which the write is taken from the port, answered and stored in
CMD. -/
def Obligations.StepRunsTheDecodedCommand : Prop :=
  ∀ (s : State) (rest : List HostEvent) (w : Word) (i : Instr),
    s.port = .write s.params.base .w32 w :: rest → decodeWord w = some i →
      step s = exec i { s with port := rest, response := some .writeDone, cmd := w }

/-- 60_exceptions.md R204: a CMD write of any word other than the ten stores the word, sets ERR to 3, and
changes nothing else. -/
def Obligations.IllegalWordSetsCmdAndErrOnly : Prop :=
  ∀ (s : State) (rest : List HostEvent) (w : Word),
    w ∉ legalWords → s.port = .write s.params.base .w32 w :: rest →
      step s = .next { s with port := rest, response := some .writeDone, cmd := w, err := 3 }

/-! ### NOP -/

/-- 42_control.md R180: NOP clears ERR, keeps RESULT and everything else, is the word 0, and any other
word with OP = 0 is illegal. -/
def Obligations.NopClearsErrOnly : Prop :=
  decodeWord 0x00000000 = some .nop ∧
  (∀ s : State, exec .nop s = .next { s with err := 0 }) ∧
  (∀ w : Word, w.extractLsb' 0 4 = 0 → w ≠ 0 → decodeWord w = none)

/-! ### F2X -/

/-- 40_codec.md R110: F2X on every state, with the exact `float_to_fixed` of R101 whatever the decimal
count. -/
def Obligations.F2xWritesTheConvertedOperand : Prop :=
  decodeWord 0x00000001 = some .f2x ∧
  ∀ s : State, exec .f2x s =
    .next { s with result := enc32 (floatToFixed s.opa s.opb.toNat), err := 0 }

/-- 40_codec.md R102: exponent field 0 gives 0, for both signs, every mantissa and every decimal count. -/
def Obligations.F2xOfZeroOrDenormalIsZero : Prop :=
  ∀ s : State, s.opa.extractLsb' 23 8 = 0 → exec .f2x s = .next { s with result := 0, err := 0 }

/-- 40_codec.md R103: exponent field 255 gives the extreme of its sign, for every mantissa and every
decimal count. -/
def Obligations.F2xOfInfinityOrNanSaturatesBySign : Prop :=
  ∀ s : State, s.opa.extractLsb' 23 8 = 255 →
    exec .f2x s =
      .next { s with result := if s.opa.getLsbD 31 then 0x80000000 else 0x7FFFFFFF, err := 0 }

/-- 40_codec.md R104: the scaled mantissa of a normal input is (2^23 + F) * 10^d, within its bounds. -/
def Obligations.ScaledMantissaIsExactAndBounded : Prop :=
  ∀ (b : Word) (d : Nat),
    scaledMantissa b d = (2 ^ 23 + (b.extractLsb' 0 23).toNat) * 10 ^ d ∧
    2 ^ 23 * 10 ^ d ≤ scaledMantissa b d ∧ scaledMantissa b d < 2 ^ 24 * 10 ^ d

/-- 40_codec.md R105: below exponent 150 the magnitude is M over 2^k with half rounded up, k = 150 - E;
then the sign and the range (R107). The magnitude is given by the inequalities that fix it. -/
def Obligations.F2xRoundsHalfAwayFromZero : Prop :=
  ∀ (s : State) (k mag : Nat),
    1 ≤ (s.opa.extractLsb' 23 8).toNat → (s.opa.extractLsb' 23 8).toNat + k = 150 → 1 ≤ k →
    2 ^ k * mag ≤ (2 ^ 23 + (s.opa.extractLsb' 0 23).toNat) * 10 ^ s.opb.toNat + 2 ^ (k - 1) →
    (2 ^ 23 + (s.opa.extractLsb' 0 23).toNat) * 10 ^ s.opb.toNat + 2 ^ (k - 1) < 2 ^ k * (mag + 1) →
      exec .f2x s = .next { s with
        result := enc32 (if s.opa.getLsbD 31 then max (-(mag : Int)) (-2147483648)
          else min (mag : Int) 2147483647),
        err := 0 }

/-- 40_codec.md R106: from exponent 150 up the magnitude is M * 2^(E-150), exact before saturation. -/
def Obligations.F2xShiftsLargeExponentsLeft : Prop :=
  ∀ (s : State) (k : Nat),
    (s.opa.extractLsb' 23 8).toNat = 150 + k → k ≤ 104 →
      exec .f2x s = .next { s with
        result := enc32 (if s.opa.getLsbD 31
          then max (-(((2 ^ 23 + (s.opa.extractLsb' 0 23).toNat) * 10 ^ s.opb.toNat * 2 ^ k : Nat) : Int)) (-2147483648)
          else min (((2 ^ 23 + (s.opa.extractLsb' 0 23).toNat) * 10 ^ s.opb.toNat * 2 ^ k : Nat) : Int) 2147483647),
        err := 0 }

/-- 40_codec.md R107: on a normal input the signed magnitude where it is in the i32 range, and the extreme
of its sign where it is not; RESULT holds the value itself. -/
def Obligations.FiniteResultsSaturateToI32 : Prop :=
  ∀ (b : Word) (d : Nat), 1 ≤ (b.extractLsb' 23 8).toNat → (b.extractLsb' 23 8).toNat ≤ 254 →
    (b.getLsbD 31 = false → magnitude b d ≤ 2147483647 → floatToFixed b d = (magnitude b d : Int)) ∧
    (b.getLsbD 31 = false → 2147483647 < magnitude b d → floatToFixed b d = 2147483647) ∧
    (b.getLsbD 31 = true → magnitude b d ≤ 2147483648 → floatToFixed b d = -(magnitude b d : Int)) ∧
    (b.getLsbD 31 = true → 2147483648 < magnitude b d → floatToFixed b d = -2147483648) ∧
    (enc32 (floatToFixed b d)).toInt = floatToFixed b d

/-- F2X is monotonic in the value of its operand, over finite floats, for every decimal count
(40_codec.md section 1). The value of a subnormal is the model's (log entry 14). -/
def Obligations.F2xIsMonotonic : Prop :=
  ∀ s t : State, s.opb = t.opb → floatExp s.opa ≠ 255 → floatExp t.opa ≠ 255 →
    floatScaledValue s.opa ≤ floatScaledValue t.opa →
      ∃ s' t' : State, exec .f2x s = .next s' ∧ exec .f2x t = .next t' ∧
        s'.result.toInt ≤ t'.result.toInt

/-- 40_codec.md R109: min(d, 48) in place of d gives the same result for every input; past 48 every normal
input saturates, and up to 48 a 184-bit M and a 288-bit magnitude are enough. -/
def Obligations.F2xFiniteDatapathIsExact : Prop :=
  ∀ (b : Word) (d : Nat),
    floatToFixed b (min d 48) = floatToFixed b d ∧
    (1 ≤ floatExp b → floatExp b ≤ 254 → 48 ≤ d → 2 ^ 31 < magnitude b d) ∧
    (1 ≤ floatExp b → floatExp b ≤ 254 → d ≤ 48 →
      scaledMantissa b d < 2 ^ 184 ∧ magnitude b d < 2 ^ 288)

/-! ### X2F -/

/-- 40_codec.md R130: X2F on every state, with the exact `fixed_to_float` of R120 whatever the decimal
count. -/
def Obligations.X2fWritesTheConvertedOperand : Prop :=
  decodeWord 0x00000002 = some .x2f ∧
  ∀ s : State, exec .x2f s =
    .next { s with result := fixedToFloat s.opa.toInt s.opb.toNat, err := 0 }

/-- 40_codec.md R121: the value 0 gives +0.0 for every decimal count. -/
def Obligations.X2fOfZeroIsPlusZero : Prop :=
  ∀ s : State, s.opa = 0 → exec .x2f s = .next { s with result := 0, err := 0 }

/-- 40_codec.md R122: A = |v| is exact, the quotient is the floor of A * 2^23 / 10^d, and it is at most
2^54. -/
def Obligations.X2fQuotientIsExactFloor : Prop :=
  ∀ (v : Word) (d : Nat),
    v.toInt.natAbs ≤ 2 ^ 31 ∧ (v = 0x80000000 → v.toInt.natAbs = 2 ^ 31) ∧
    fixedQuotient v.toInt d * 10 ^ d ≤ v.toInt.natAbs * 2 ^ 23 ∧
    v.toInt.natAbs * 2 ^ 23 < (fixedQuotient v.toInt d + 1) * 10 ^ d ∧
    fixedQuotient v.toInt d ≤ 2 ^ 54

/-- 40_codec.md R123: a quotient of 0 gives +0.0, for either sign. -/
def Obligations.X2fZeroQuotientIsPlusZero : Prop :=
  ∀ s : State, s.opa.toInt.natAbs * 2 ^ 23 < 10 ^ s.opb.toNat →
    exec .x2f s = .next { s with result := 0, err := 0 }

/-- 40_codec.md R124: normalisation ends in [2^23, 2^24) with an exponent in 104..158, by at most 31
truncating halvings or at most 23 doublings, never both. -/
def Obligations.NormalisationEndsInRange : Prop :=
  ∀ q : Nat, 1 ≤ q → q ≤ 2 ^ 54 →
    2 ^ 23 ≤ (normalise q).1 ∧ (normalise q).1 < 2 ^ 24 ∧
    104 ≤ (normalise q).2 ∧ (normalise q).2 ≤ 158 ∧
    ((∃ h, h ≤ 31 ∧ (normalise q).1 = q / 2 ^ h ∧ (normalise q).2 = 127 + h) ∨
      (∃ h, h ≤ 23 ∧ (normalise q).1 = q * 2 ^ h ∧ (normalise q).2 + h = 127))

/-- 40_codec.md R125: a nonzero quotient, halved or doubled into [2^23, 2^24) with the exponent counted
from 127, is packed as sign, exponent and mantissa without its leading bit. -/
def Obligations.X2fPacksSignExponentMantissa : Prop :=
  ∀ (s : State) (m e h : Nat), 2 ^ 23 ≤ m → m < 2 ^ 24 →
    (m = s.opa.toInt.natAbs * 2 ^ 23 / 10 ^ s.opb.toNat / 2 ^ h ∧ e = 127 + h ∨
      m = s.opa.toInt.natAbs * 2 ^ 23 / 10 ^ s.opb.toNat * 2 ^ h ∧ e + h = 127) →
      exec .x2f s = .next { s with
        result := BitVec.ofBool (decide (s.opa.toInt < 0)) ++ BitVec.ofNat 8 e ++ BitVec.ofNat 23 (m - 2 ^ 23),
        err := 0 }

/-- X2F never gives -0.0, a subnormal, an infinity or a NaN: RESULT is +0.0, or its exponent field is in
104..158 and its sign is the operand's (40_codec.md section 3). -/
def Obligations.X2fGivesPlusZeroOrANormal : Prop :=
  ∀ s : State, ∃ t : State, exec .x2f s = .next t ∧
    (t.result = 0 ∨
      (104 ≤ floatExp t.result ∧ floatExp t.result ≤ 158 ∧
        (floatSign t.result = true ↔ s.opa.toInt < 0)))

/-- X2F truncates toward zero: the magnitude of a nonzero RESULT, (2^23 + F) * 2^(E-150), is not above
A / 10^d (40_codec.md section 3). -/
def Obligations.X2fNeverExceedsTheExactValue : Prop :=
  ∀ s : State, ∃ t : State, exec .x2f s = .next t ∧
    (t.result ≠ 0 →
      (2 ^ 23 + floatFrac t.result) * 2 ^ floatExp t.result * 10 ^ s.opb.toNat
        ≤ s.opa.toInt.natAbs * 2 ^ 150)

/-- 40_codec.md R128: min(d, 17) in place of d gives the same result for every input; from 17 on the
result is +0.0; a 55-bit dividend and a 57-bit divisor are enough. -/
def Obligations.X2fFiniteDatapathIsExact : Prop :=
  ∀ (v : Word) (d : Nat),
    fixedToFloat v.toInt (min d 17) = fixedToFloat v.toInt d ∧
    (17 ≤ d → fixedToFloat v.toInt d = 0) ∧
    v.toInt.natAbs * 2 ^ 23 < 2 ^ 55 ∧ 10 ^ min d 17 < 2 ^ 57

/-! ### DECODE -/

/-- 20_memory.md R60: `assemble` in both orders, four bytes as two halves combined, LE the default, and no
step switches the order. -/
def Obligations.AssembleFollowsTheByteOrder : Prop :=
  (∀ b0 b1 : Byte,
    BitVec.ofNat 16 (assemble .LE [b0, b1]) = b1 ++ b0 ∧
    BitVec.ofNat 16 (assemble .BE [b0, b1]) = b0 ++ b1) ∧
  (∀ b0 b1 b2 b3 : Byte,
    BitVec.ofNat 32 (assemble .LE [b0, b1, b2, b3]) = b3 ++ b2 ++ b1 ++ b0 ∧
    BitVec.ofNat 32 (assemble .BE [b0, b1, b2, b3]) = b0 ++ b1 ++ b2 ++ b3 ∧
    assemble .LE [b0, b1, b2, b3] = assemble .LE [b0, b1] + 2 ^ 16 * assemble .LE [b2, b3] ∧
    assemble .BE [b0, b1, b2, b3] = 2 ^ 16 * assemble .BE [b0, b1] + assemble .BE [b2, b3]) ∧
  State.reset.params.byteOrder = .LE ∧
  ∀ s t : State, step s = .next t → t.params = s.params

/-- 41_decoder.md R142: an in-range index in Int8 format gives the byte at that index, sign-extended. -/
def Obligations.DecodeInt8SignExtendsTheByte : Prop :=
  ∀ s : State, s.fmt = 0 → s.opa.toNat < s.count.val →
    exec .decode s =
      .next { s with result := (readByte s.buf s.opa.toNat).signExtend 32, err := 0 } ∧
    -128 ≤ ((readByte s.buf s.opa.toNat).signExtend 32).toInt ∧
    ((readByte s.buf s.opa.toNat).signExtend 32).toInt ≤ 127

/-- 41_decoder.md R143: an in-range index in Int16 format gives the two bytes at twice the index, in
BYTE_ORDER, sign-extended. -/
def Obligations.DecodeInt16AssemblesTwoBytes : Prop :=
  ∀ s : State, s.fmt = 1 → s.opa.toNat < s.count.val →
    (s.params.byteOrder = .LE → exec .decode s = .next { s with
      result := (readByte s.buf (2 * s.opa.toNat + 1) ++ readByte s.buf (2 * s.opa.toNat)).signExtend 32,
      err := 0 }) ∧
    (s.params.byteOrder = .BE → exec .decode s = .next { s with
      result := (readByte s.buf (2 * s.opa.toNat) ++ readByte s.buf (2 * s.opa.toNat + 1)).signExtend 32,
      err := 0 })

/-- 41_decoder.md R144: an in-range index in Int32 format gives the four bytes at four times the index, in
BYTE_ORDER. -/
def Obligations.DecodeInt32AssemblesFourBytes : Prop :=
  ∀ s : State, s.fmt = 2 → s.opa.toNat < s.count.val →
    (s.params.byteOrder = .LE → exec .decode s = .next { s with
      result := readByte s.buf (4 * s.opa.toNat + 3) ++ readByte s.buf (4 * s.opa.toNat + 2) ++
        readByte s.buf (4 * s.opa.toNat + 1) ++ readByte s.buf (4 * s.opa.toNat),
      err := 0 }) ∧
    (s.params.byteOrder = .BE → exec .decode s = .next { s with
      result := readByte s.buf (4 * s.opa.toNat) ++ readByte s.buf (4 * s.opa.toNat + 1) ++
        readByte s.buf (4 * s.opa.toNat + 2) ++ readByte s.buf (4 * s.opa.toNat + 3),
      err := 0 })

/-- 41_decoder.md R145: an in-range index in Float32 format gives `float_to_fixed`, exact, of the four
bytes at four times the index, in BYTE_ORDER, with the mode's decimals. -/
def Obligations.DecodeFloat32ConvertsFourBytes : Prop :=
  ∀ s : State, s.fmt = 3 → s.opa.toNat < s.count.val →
    (s.params.byteOrder = .LE → exec .decode s = .next { s with
      result := enc32 (floatToFixed
        (readByte s.buf (4 * s.opa.toNat + 3) ++ readByte s.buf (4 * s.opa.toNat + 2) ++
          readByte s.buf (4 * s.opa.toNat + 1) ++ readByte s.buf (4 * s.opa.toNat)) s.dec.toNat),
      err := 0 }) ∧
    (s.params.byteOrder = .BE → exec .decode s = .next { s with
      result := enc32 (floatToFixed
        (readByte s.buf (4 * s.opa.toNat) ++ readByte s.buf (4 * s.opa.toNat + 1) ++
          readByte s.buf (4 * s.opa.toNat + 2) ++ readByte s.buf (4 * s.opa.toNat + 3)) s.dec.toNat),
      err := 0 })

/-- 60_exceptions.md R202: an index at or past COUNT gives IndexOutOfRange, for every format tag and
whatever the buffer holds. -/
def Obligations.DecodeIndexAtOrPastCountFails : Prop :=
  ∀ s : State, s.count.val ≤ s.opa.toNat → exec .decode s = .next { s with err := 1 }

/-- 60_exceptions.md R203: an in-range index with a tag that is not one of the four gives
UnsupportedFormat; a MODE_FMT write can store such a tag. -/
def Obligations.DecodeUnrecognisedFormatFails : Prop :=
  (∀ s : State, s.opa.toNat < s.count.val → 4 ≤ s.fmt.toNat →
    exec .decode s = .next { s with err := 2 }) ∧
  (∀ (s : State) (rest : List HostEvent) (v : Word), 4 ≤ v.toNat → v.toNat ≤ 7 →
    s.port = .write (s.params.base + 0x14) .w32 v :: rest →
      ∃ t : State, step s = .next t ∧ t.fmt.toNat = v.toNat)

/-- DECODE depends on no byte of the buffer but the `width` bytes at `index * width`, and those lie in the
first COUNT * width bytes and in the buffer (20_memory.md section 5). -/
def Obligations.DecodeReadsOnlyTheSelectedValue : Prop :=
  (∀ (s t : State) (m : Memory),
    (∀ f, formatOf s.fmt = some f → ∀ a, s.opa.toNat * formatWidth f ≤ a →
      a < s.opa.toNat * formatWidth f + formatWidth f → readByte m a = readByte s.buf a) →
    exec .decode s = .next t → exec .decode { s with buf := m } = .next { t with buf := m }) ∧
  (∀ (s : State) (f : Format), s.opa.toNat < s.count.val →
    s.opa.toNat * formatWidth f + formatWidth f ≤ s.count.val * formatWidth f ∧
    s.count.val * formatWidth f ≤ 32)

/-! ### RDBOUND -/

/-- 41_decoder.md R161: each of the six RDBOUND commands converts its own stored bound with the mode's
decimals, exactly, on every state. -/
def Obligations.RdboundConvertsTheStoredBound : Prop :=
  (decodeWord 0x04 = some .rdboundRawMin ∧ decodeWord 0x14 = some .rdboundRawMax ∧
    decodeWord 0x24 = some .rdboundPctMin ∧ decodeWord 0x34 = some .rdboundPctMax ∧
    decodeWord 0x44 = some .rdboundSiMin ∧ decodeWord 0x54 = some .rdboundSiMax ∧
    decodeWord 0x64 = none ∧ decodeWord 0x74 = none) ∧
  ∀ s : State,
    exec .rdboundRawMin s = .next { s with result := enc32 (floatToFixed s.bound.rawMin s.dec.toNat), err := 0 } ∧
    exec .rdboundRawMax s = .next { s with result := enc32 (floatToFixed s.bound.rawMax s.dec.toNat), err := 0 } ∧
    exec .rdboundPctMin s = .next { s with result := enc32 (floatToFixed s.bound.pctMin s.dec.toNat), err := 0 } ∧
    exec .rdboundPctMax s = .next { s with result := enc32 (floatToFixed s.bound.pctMax s.dec.toNat), err := 0 } ∧
    exec .rdboundSiMin s = .next { s with result := enc32 (floatToFixed s.bound.siMin s.dec.toNat), err := 0 } ∧
    exec .rdboundSiMax s = .next { s with result := enc32 (floatToFixed s.bound.siMax s.dec.toNat), err := 0 }

/-! ### All commands -/

/-- 10_state.md R35: every command, on every state, completes; it writes only ERR and, where ERR is then
OK, RESULT; every other register, the buffer byte by byte and the port are as before; and the same
command once more changes nothing. -/
def Obligations.CommandsWriteOnlyResultAndErr : Prop :=
  ∀ (i : Instr) (s : State), ∃ t : State, exec i s = .next t ∧ SameInputs s t ∧
    (t.err ≠ 0 → t.result = s.result) ∧ exec i t = .next t

/-- 60_exceptions.md R207: F2X, X2F, RDBOUND and NOP always, and DECODE of an in-range index in a
recognised format, complete with ERR = OK. -/
def Obligations.LegalCommandsSucceed : Prop :=
  ∀ (i : Instr) (s : State),
    (i = .decode → s.opa.toNat < s.count.val ∧ s.fmt.toNat ≤ 3) →
      ∃ t : State, exec i s = .next t ∧ t.err = 0

/-- 60_exceptions.md R200, R206: ERR after a CMD write, for every word and every state: IllegalCommand 3
before IndexOutOfRange 1 before UnsupportedFormat 2, and 0 otherwise. -/
def Obligations.ErrAfterACommandFollowsThePriority : Prop :=
  ∀ (s : State) (rest : List HostEvent) (w : Word), s.port = .write s.params.base .w32 w :: rest →
    ∃ t : State, step s = .next t ∧
      t.err = (if w ∉ legalWords then 3
        else if w = 3 ∧ s.count.val ≤ s.opa.toNat then 1
        else if w = 3 ∧ 4 ≤ s.fmt.toNat then 2
        else 0)

/-- 60_exceptions.md R205: when a CMD write ends in an error, nothing but CMD and ERR has changed. -/
def Obligations.ErrorsLeaveResultUnchanged : Prop :=
  ∀ (s : State) (rest : List HostEvent) (w : Word), s.port = .write s.params.base .w32 w :: rest →
    ∃ t : State, step s = .next t ∧
      (t.err ≠ 0 →
        t = { s with port := rest, response := some .writeDone, cmd := w, err := t.err })

/-! ### The host port -/

/-- 20_memory.md R54: what a write stores in each writable control register, what a read of each control
register returns, and that a CMD write stores the word and runs its command. -/
def Obligations.ControlRegisterAccess : Prop :=
  (∀ (s : State) (rest : List HostEvent) (off : Nat) (v : Word),
    s.port = .write (s.params.base + off) .w32 v :: rest →
      (off = 0x04 → step s = .next { s with port := rest, response := some .writeDone, opa := v }) ∧
      (off = 0x08 → step s = .next { s with port := rest, response := some .writeDone, opb := v }) ∧
      (off = 0x14 → step s = .next { s with port := rest, response := some .writeDone, fmt := v.extractLsb' 0 3 }) ∧
      (off = 0x18 → ∃ c : Fin 9, c.val = min v.toNat 8 ∧
        step s = .next { s with port := rest, response := some .writeDone, count := c }) ∧
      (off = 0x1C → step s = .next { s with port := rest, response := some .writeDone, dec := v }) ∧
      (off = 0x20 → step s = .next { s with port := rest, response := some .writeDone, bound := { s.bound with rawMin := v } }) ∧
      (off = 0x24 → step s = .next { s with port := rest, response := some .writeDone, bound := { s.bound with rawMax := v } }) ∧
      (off = 0x28 → step s = .next { s with port := rest, response := some .writeDone, bound := { s.bound with pctMin := v } }) ∧
      (off = 0x2C → step s = .next { s with port := rest, response := some .writeDone, bound := { s.bound with pctMax := v } }) ∧
      (off = 0x30 → step s = .next { s with port := rest, response := some .writeDone, bound := { s.bound with siMin := v } }) ∧
      (off = 0x34 → step s = .next { s with port := rest, response := some .writeDone, bound := { s.bound with siMax := v } }) ∧
      (off = 0x00 → ∃ t : State, step s = .next t ∧ t.cmd = v ∧
        ∀ i, decodeWord v = some i →
          exec i { s with port := rest, response := some .writeDone, cmd := v } = .next t)) ∧
  (∀ (s : State) (rest : List HostEvent) (off : Nat),
    s.port = .read (s.params.base + off) .w32 :: rest →
      (off = 0x00 → step s = .next { s with port := rest, response := some (.readData s.cmd) }) ∧
      (off = 0x04 → step s = .next { s with port := rest, response := some (.readData s.opa) }) ∧
      (off = 0x08 → step s = .next { s with port := rest, response := some (.readData s.opb) }) ∧
      (off = 0x0C → step s = .next { s with port := rest, response := some (.readData s.result) }) ∧
      (off = 0x10 → step s = .next { s with port := rest, response := some (.readData (0#28 ++ s.err)) }) ∧
      (off = 0x14 → step s = .next { s with port := rest, response := some (.readData (0#29 ++ s.fmt)) }) ∧
      (off = 0x18 → step s = .next { s with port := rest, response := some (.readData (BitVec.ofNat 32 s.count.val)) }) ∧
      (off = 0x1C → step s = .next { s with port := rest, response := some (.readData s.dec) }) ∧
      (off = 0x20 → step s = .next { s with port := rest, response := some (.readData s.bound.rawMin) }) ∧
      (off = 0x24 → step s = .next { s with port := rest, response := some (.readData s.bound.rawMax) }) ∧
      (off = 0x28 → step s = .next { s with port := rest, response := some (.readData s.bound.pctMin) }) ∧
      (off = 0x2C → step s = .next { s with port := rest, response := some (.readData s.bound.pctMax) }) ∧
      (off = 0x30 → step s = .next { s with port := rest, response := some (.readData s.bound.siMin) }) ∧
      (off = 0x34 → step s = .next { s with port := rest, response := some (.readData s.bound.siMax) }))

/-- 20_memory.md R55: a write to RESULT or STATUS is a bus error that changes no register; a 32-bit read of
either is admitted. -/
def Obligations.ReadOnlyRegistersRejectWrites : Prop :=
  (∀ (s : State) (rest : List HostEvent) (off : Nat) (n : Width) (v : Word), off = 0x0C ∨ off = 0x10 →
    s.port = .write (s.params.base + off) n v :: rest →
      step s = .next { s with port := rest, response := some .writeError }) ∧
  (∀ (s : State) (rest : List HostEvent) (off : Nat), off = 0x0C ∨ off = 0x10 →
    s.port = .read (s.params.base + off) .w32 :: rest →
      ∃ d : Word, step s = .next { s with port := rest, response := some (.readData d) })

/-- 20_memory.md R53: an access of the window that R52 does not admit gets a bus error and changes no
register and no byte; a read returns 0 with the error. -/
def Obligations.UnadmittedAccessIsABusError : Prop :=
  ∀ (s : State) (rest : List HostEvent) (off : Nat) (n : Width) (v : Word),
    off < 256 → ¬ Admitted off (widthBytes n) →
      (s.port = .write (s.params.base + off) n v :: rest →
        step s = .next { s with port := rest, response := some .writeError }) ∧
      (s.port = .read (s.params.base + off) n :: rest →
        step s = .next { s with port := rest, response := some (.readError 0) })

/-- 20_memory.md R56: byte j of an admitted buffer access travels in data bits [8j+7:8j]. A write stores
those bytes and no other, whatever the data bits above them; a read returns them with the bits above
0. -/
def Obligations.BufferAccessUsesLittleEndianLanes : Prop :=
  ∀ (s : State) (rest : List HostEvent) (off : Nat) (n : Width), s.Inv →
    off % widthBytes n = 0 → 0x40 ≤ off → off + widthBytes n ≤ 0x60 →
      (∀ v : Word, s.port = .write (s.params.base + off) n v :: rest →
        ∃ t : State, step s = .next t ∧
          (∀ j, j < widthBytes n → readByte t.buf (off - 0x40 + j) = v.extractLsb' (8 * j) 8) ∧
          (∀ a, a < off - 0x40 ∨ off - 0x40 + widthBytes n ≤ a → readByte t.buf a = readByte s.buf a) ∧
          t = { s with port := rest, response := some .writeDone, buf := t.buf }) ∧
      (s.port = .read (s.params.base + off) n :: rest →
        ∃ d : Word, step s = .next { s with port := rest, response := some (.readData d) } ∧
          (∀ j, j < widthBytes n → d.extractLsb' (8 * j) 8 = readByte s.buf (off - 0x40 + j)) ∧
          d.toNat < 2 ^ (8 * widthBytes n))

/-- A buffer read right after a write of the same bytes returns the data written, less the bits above the
width (20_memory.md sections 2 and 6). -/
def Obligations.BufferReadsBackWhatWasWritten : Prop :=
  ∀ (s : State) (rest : List HostEvent) (off : Nat) (n : Width) (v : Word), s.Inv →
    off % widthBytes n = 0 → 0x40 ≤ off → off + widthBytes n ≤ 0x60 →
    s.port = .write (s.params.base + off) n v :: .read (s.params.base + off) n :: rest →
      ∃ t : State, Sys2Proof.core.run 2 s = .next t ∧
        t.response = some (.readData (BitVec.ofNat 32 (v.toNat % 2 ^ (8 * widthBytes n)))) ∧
        t.port = rest

/-- A read of the window changes nothing but the port and its answer, which is the value held at the
offset; and of two like reads pending one after the other, the second is answered as the first was
(20_memory.md section 2). -/
def Obligations.ReadsHaveNoSideEffects : Prop :=
  ∀ (s : State) (rest : List HostEvent) (addr : Nat) (n : Width), InWindow s.params addr →
    (s.port = .read addr n :: rest →
      step s = .next { s with
        port := rest
        response := some (readResponse (addr - s.params.base) n (s.setPort rest)) }) ∧
    (s.port = .read addr n :: .read addr n :: rest →
      ∃ (t : State) (r : BusResponse),
        r = readResponse (addr - s.params.base) n (s.setPort rest) ∧
        step s = .next t ∧
        t = { s with port := .read addr n :: rest, response := some r } ∧
        t.response = some r ∧
        step t = .next { s with port := rest, response := some r })

/-- A step changes RESULT or ERR only when it serves a 32-bit write of CMD or a reset
(60_exceptions.md section 1). -/
def Obligations.OnlyCommandsAndResetChangeResultOrErr : Prop :=
  ∀ s t : State, step s = .next t → t.result ≠ s.result ∨ t.err ≠ s.err →
    ∃ (ev : HostEvent) (rest : List HostEvent), s.port = ev :: rest ∧
      (ev = .reset ∨ ∃ w, ev = .write s.params.base .w32 w)

/-- Only host writes, and a reset, change CMD, OPA, OPB, the descriptor registers, the bounds and the
buffer (10_state.md section 5), each register only by a 32-bit write at its own offset, each byte only by
a write that covers it. -/
def Obligations.InputsChangeOnlyByTheirOwnWrites : Prop :=
  ∀ s t : State, s.Inv → step s = .next t → s.port.head? ≠ some .reset →
    (t.cmd ≠ s.cmd → s.port.head? = some (.write s.params.base .w32 t.cmd)) ∧
    (t.opa ≠ s.opa → s.port.head? = some (.write (s.params.base + 0x04) .w32 t.opa)) ∧
    (t.opb ≠ s.opb → s.port.head? = some (.write (s.params.base + 0x08) .w32 t.opb)) ∧
    (t.fmt ≠ s.fmt → ∃ v, s.port.head? = some (.write (s.params.base + 0x14) .w32 v)) ∧
    (t.count ≠ s.count → ∃ v, s.port.head? = some (.write (s.params.base + 0x18) .w32 v)) ∧
    (t.dec ≠ s.dec → s.port.head? = some (.write (s.params.base + 0x1C) .w32 t.dec)) ∧
    (t.bound.rawMin ≠ s.bound.rawMin → s.port.head? = some (.write (s.params.base + 0x20) .w32 t.bound.rawMin)) ∧
    (t.bound.rawMax ≠ s.bound.rawMax → s.port.head? = some (.write (s.params.base + 0x24) .w32 t.bound.rawMax)) ∧
    (t.bound.pctMin ≠ s.bound.pctMin → s.port.head? = some (.write (s.params.base + 0x28) .w32 t.bound.pctMin)) ∧
    (t.bound.pctMax ≠ s.bound.pctMax → s.port.head? = some (.write (s.params.base + 0x2C) .w32 t.bound.pctMax)) ∧
    (t.bound.siMin ≠ s.bound.siMin → s.port.head? = some (.write (s.params.base + 0x30) .w32 t.bound.siMin)) ∧
    (t.bound.siMax ≠ s.bound.siMax → s.port.head? = some (.write (s.params.base + 0x34) .w32 t.bound.siMax)) ∧
    (∀ a, readByte t.buf a ≠ readByte s.buf a →
      ∃ off n v, s.port.head? = some (.write (s.params.base + off) n v) ∧
        off ≤ 0x40 + a ∧ 0x40 + a < off + widthBytes n)

/-- An access whose address is outside the window stops the machine with its own fault. The model's choice
(log entry 5): such an access is not one of FXC's steps. -/
def Obligations.AccessOutsideTheWindowFaults : Prop :=
  ∀ (s : State) (rest : List HostEvent) (addr : Nat) (n : Width) (v : Word), ¬ InWindow s.params addr →
    s.port = .write addr n v :: rest ∨ s.port = .read addr n :: rest →
      step s = .fault .outsideWindow

/-! ### Reset -/

/-- 70_reset_and_hazards.md R230: a reset, from any state, sets every register and every buffer byte to its
reset value and runs no command. -/
def Obligations.ResetEventSetsEveryRegister : Prop :=
  ∀ (s : State) (rest : List HostEvent), s.port = .reset :: rest →
    ∃ t : State, step s = .next t ∧ t.cmd = 0 ∧ t.opa = 0 ∧ t.opb = 0 ∧ t.result = 0 ∧ t.err = 0 ∧
      t.fmt = 0 ∧ t.count = 0 ∧ t.dec = 0 ∧
      t.bound = { rawMin := 0, rawMax := 0, pctMin := 0, pctMax := 0, siMin := 0, siMax := 0 } ∧
      ∀ a, readByte t.buf a = 0

/-- 70_reset_and_hazards.md R231: the state right after reset, and what each command then gives. -/
def Obligations.StateAfterReset : Prop :=
  State.reset.cmd = 0 ∧ State.reset.opa = 0 ∧ State.reset.opb = 0 ∧ State.reset.result = 0 ∧
  State.reset.err = 0 ∧ State.reset.fmt = 0 ∧ State.reset.count = 0 ∧ State.reset.dec = 0 ∧
  State.reset.bound = { rawMin := 0, rawMax := 0, pctMin := 0, pctMax := 0, siMin := 0, siMax := 0 } ∧
  (∀ a, readByte State.reset.buf a = 0) ∧
  ∀ i : Instr, exec i State.reset =
    .next { State.reset with err := if i = .decode then 1 else 0 }

/-! ### Whole-machine rules -/

/-- Every step keeps the invariant: the buffer's canonical form, and ERR a code that is written. -/
def Obligations.EveryStepKeepsTheInvariant : Prop :=
  ∀ s t : State, s.Inv → step s = .next t → t.Inv

/-- The invariant holds at reset. -/
def Obligations.InvHoldsAtReset : Prop := State.reset.Inv

/-- A run whose pending events all reach FXC never faults and is never refused, however long: no command
and no access can stop the machine. -/
def Obligations.RunsInsideTheWindowNeverStop : Prop :=
  ∀ (k : Nat) (s : State), (∀ ev ∈ s.port, Reaches s.params ev) →
    ∃ t : State, Sys2Proof.core.run k s = .next t

/-- No step depends on how an earlier access was answered: the port's last answer is no input
(10_state.md section 4). -/
def Obligations.EarlierAnswersAreNoInput : Prop :=
  ∀ (s : State) (r : Option BusResponse), s.port ≠ [] → step { s with response := r } = step s

/-- The pseudo-instructions `cvt.f2x`, `cvt.x2f` and `setmode` (30_encoding.md section 6), run as the three
writes they expand to. -/
def Obligations.PseudoInstructionsRunAsTheyExpand : Prop :=
  ∀ (s : State) (rest : List HostEvent),
    (∀ bits d : Word, s.port = cvtF2x s.params bits d ++ rest →
      Sys2Proof.core.run 3 s = .next { s with
        port := rest, response := some .writeDone, opa := bits, opb := d, cmd := 0x00000001,
        result := enc32 (floatToFixed bits d.toNat), err := 0 }) ∧
    (∀ v d : Word, s.port = cvtX2f s.params v.toInt d ++ rest →
      Sys2Proof.core.run 3 s = .next { s with
        port := rest, response := some .writeDone, opa := v, opb := d, cmd := 0x00000002,
        result := fixedToFloat v.toInt d.toNat, err := 0 }) ∧
    (∀ f c d : Word, s.port = setmode s.params f c d ++ rest →
      ∃ k : Fin 9, k.val = min c.toNat 8 ∧
        Sys2Proof.core.run 3 s = .next { s with
          port := rest, response := some .writeDone, fmt := f.extractLsb' 0 3, count := k, dec := d })
end

