-- ==== Sys2Proof/Laws/Codec.lean ====
section
/-! SUPPORT. The codec's shared operations, each said once: the fields of a float, the range of
`saturate`, what the two normalisation loops answer, and the fields of a packed float. -/

namespace Sys2Proof.Machine

@[simp] theorem enc32_toInt_self (x : Word) : enc32 x.toInt = x := BitVec.ofInt_toInt

/-- `s(enc32(z)) = z` for z in the i32 range (00_scope.md R9). -/
theorem toInt_enc32 {z : Int} (h1 : -2147483648 ≤ z) (h2 : z ≤ 2147483647) : (enc32 z).toInt = z := by
  unfold enc32
  rw [BitVec.toInt_ofInt]
  apply Int.bmod_eq_of_le
  · omega
  · omega

theorem floatExp_lt (b : Word) : floatExp b < 256 := (b.extractLsb' 23 8).isLt

theorem floatFrac_lt (b : Word) : floatFrac b < 2 ^ 23 := (b.extractLsb' 0 23).isLt

theorem saturate_pos (m : Nat) : saturate false m = min (m : Int) 2147483647 := rfl

theorem saturate_neg (m : Nat) : saturate true m = max (-(m : Int)) (-2147483648) := rfl

theorem saturate_range (n : Bool) (m : Nat) : -2147483648 ≤ saturate n m ∧ saturate n m ≤ 2147483647 := by
  cases n
  · rw [saturate_pos]; omega
  · rw [saturate_neg]; omega

/-- Past the range every magnitude saturates alike. -/
theorem saturate_congr {n : Bool} {m m' : Nat} (h : 2 ^ 31 ≤ m) (h' : 2 ^ 31 ≤ m') :
    saturate n m = saturate n m' := by
  cases n
  · rw [saturate_pos, saturate_pos]; omega
  · rw [saturate_neg, saturate_neg]; omega

theorem floatToFixed_range (b : Word) (d : Nat) :
    -2147483648 ≤ floatToFixed b d ∧ floatToFixed b d ≤ 2147483647 := by
  unfold floatToFixed
  split
  · decide
  · split
    · split <;> decide
    · exact saturate_range _ _

/-- The halving loop halves k times, k at most the fuel, and ends below 2^24, having overshot in no
step. -/
theorem halve_spec (fuel q e : Nat) (h : q < 2 ^ (24 + fuel)) :
    ∃ k, k ≤ fuel ∧ halve fuel q e = (q / 2 ^ k, e + k) ∧ q / 2 ^ k < 2 ^ 24 ∧
      (k ≠ 0 → 2 ^ 23 ≤ q / 2 ^ k) := by
  induction fuel generalizing q e with
  | zero => exact ⟨0, le_rfl, by simp [halve], by simpa using h, by simp⟩
  | succ f ih =>
    unfold halve
    split
    · obtain ⟨k, hk, he, hlt, hge⟩ :=
        ih (q / 2) (e + 1) (by rw [Nat.div_lt_iff_lt_mul (by decide), ← pow_succ]; exact h)
      have hd : q / 2 / 2 ^ k = q / 2 ^ (k + 1) := by rw [Nat.div_div_eq_div_mul, pow_succ, mul_comm]
      rw [hd] at hlt hge he
      refine ⟨k + 1, by omega, ?_, hlt, fun _ => ?_⟩
      · rw [he, Nat.add_assoc, Nat.add_comm 1 k]
      · by_cases h0 : k = 0
        · subst h0; simp; omega
        · exact hge h0
    · exact ⟨0, by omega, by simp, by simp; omega, by simp⟩

/-- The doubling loop doubles k times, k at most the fuel, and ends at 2^23 or above, having overshot in
no step. -/
theorem double_spec (fuel q e : Nat) (h : 2 ^ 23 ≤ q * 2 ^ fuel) (he : fuel ≤ e) :
    ∃ k, k ≤ fuel ∧ double fuel q e = (q * 2 ^ k, e - k) ∧ 2 ^ 23 ≤ q * 2 ^ k ∧
      (k ≠ 0 → q * 2 ^ k < 2 ^ 24) := by
  induction fuel generalizing q e with
  | zero => exact ⟨0, le_rfl, by simp [double], by simpa using h, by simp⟩
  | succ f ih =>
    unfold double
    split
    · obtain ⟨k, hk, hh, hge, hlt⟩ :=
        ih (q * 2) (e - 1) (by rw [pow_succ] at h; rw [mul_assoc, mul_comm 2]; exact h) (by omega)
      have hd : q * 2 * 2 ^ k = q * 2 ^ (k + 1) := by rw [pow_succ]; ring
      rw [hd] at hh hge hlt
      refine ⟨k + 1, by omega, ?_, hge, fun _ => ?_⟩
      · rw [hh]; congr 1; omega
      · by_cases h0 : k = 0
        · subst h0; simp; omega
        · exact hlt h0
    · exact ⟨0, by omega, by simp, by simp; omega, by simp⟩

theorem toNat_pack (n : Bool) (e f : Nat) (he : e < 256) (hf : f < 2 ^ 23) :
    (BitVec.ofBool n ++ BitVec.ofNat 8 e ++ BitVec.ofNat 23 f : BitVec (1 + 8 + 23)).toNat =
      n.toNat * 2 ^ 31 + e * 2 ^ 23 + f := by
  rw [BitVec.toNat_append, BitVec.toNat_append, BitVec.toNat_ofNat, BitVec.toNat_ofNat, BitVec.toNat_ofBool,
    Nat.mod_eq_of_lt he, Nat.mod_eq_of_lt hf, ← Nat.shiftLeft_add_eq_or_of_lt (show e < 2 ^ 8 from he),
    ← Nat.shiftLeft_add_eq_or_of_lt hf, Nat.shiftLeft_eq, Nat.shiftLeft_eq]
  ring

theorem packFloat_toNat (n : Bool) (q e : Nat) (h1 : 2 ^ 23 ≤ q) (h2 : q < 2 ^ 24) (h3 : e < 256) :
    (packFloat n q e).toNat = n.toNat * 2 ^ 31 + e * 2 ^ 23 + (q - 2 ^ 23) :=
  toNat_pack n e (q - 2 ^ 23) h3 (by omega)

/-- The fields of a word from its parts: sign, exponent, mantissa (00_scope.md R13). -/
theorem fields_of_toNat {w : Word} {n : Bool} {e f : Nat} (h3 : e < 256) (hf : f < 2 ^ 23)
    (hn : w.toNat = n.toNat * 2 ^ 31 + e * 2 ^ 23 + f) :
    floatSign w = n ∧ floatExp w = e ∧ floatFrac w = f := by
  refine ⟨?_, ?_, ?_⟩
  · unfold floatSign
    rw [BitVec.getLsbD, hn, Nat.testBit_eq_decide_div_mod_eq]
    cases n
    · simp only [Bool.toNat_false, decide_eq_false_iff_not]; omega
    · simp only [Bool.toNat_true, decide_eq_true_eq]; omega
  · unfold floatExp
    rw [BitVec.extractLsb'_toNat, hn, Nat.shiftRight_eq_div_pow]
    cases n
    · rw [Bool.toNat_false]; omega
    · rw [Bool.toNat_true]; omega
  · unfold floatFrac
    rw [BitVec.extractLsb'_toNat, hn, Nat.shiftRight_eq_div_pow]; omega

/-- A packed float has the sign, exponent and mantissa it was packed from (40_codec.md R125). -/
theorem packFloat_fields (n : Bool) (q e : Nat) (h1 : 2 ^ 23 ≤ q) (h2 : q < 2 ^ 24) (h3 : e < 256) :
    floatSign (packFloat n q e) = n ∧ floatExp (packFloat n q e) = e ∧
      floatFrac (packFloat n q e) = q - 2 ^ 23 :=
  fields_of_toNat h3 (by omega) (packFloat_toNat n q e h1 h2 h3)

/-- `fixed_to_float` gives +0.0 or packs the normalised quotient (40_codec.md R120). -/
theorem fixedToFloat_cases (v : Int) (d : Nat) :
    fixedToFloat v d = 0 ∨
    (1 ≤ fixedQuotient v d ∧
      fixedToFloat v d =
        packFloat (decide (v < 0)) (normalise (fixedQuotient v d)).1 (normalise (fixedQuotient v d)).2) := by
  unfold fixedToFloat
  split
  · exact .inl rfl
  · split
    · exact .inl rfl
    · exact .inr ⟨by omega, rfl⟩

end Sys2Proof.Machine
end

