-- ==== Sys2Proof/Laws/State.lean ====
section
/-! SUPPORT. One lemma per field per update of State, each true by rfl, so that no later proof unfolds a
record update. -/

namespace Sys2Proof.Machine

variable (s : State)

@[simp] theorem State.setCmd_params (v : Word) : (s.setCmd v).params = s.params := rfl
@[simp] theorem State.setCmd_cmd (v : Word) : (s.setCmd v).cmd = v := rfl
@[simp] theorem State.setCmd_opa (v : Word) : (s.setCmd v).opa = s.opa := rfl
@[simp] theorem State.setCmd_opb (v : Word) : (s.setCmd v).opb = s.opb := rfl
@[simp] theorem State.setCmd_result (v : Word) : (s.setCmd v).result = s.result := rfl
@[simp] theorem State.setCmd_err (v : Word) : (s.setCmd v).err = s.err := rfl
@[simp] theorem State.setCmd_fmt (v : Word) : (s.setCmd v).fmt = s.fmt := rfl
@[simp] theorem State.setCmd_count (v : Word) : (s.setCmd v).count = s.count := rfl
@[simp] theorem State.setCmd_dec (v : Word) : (s.setCmd v).dec = s.dec := rfl
@[simp] theorem State.setCmd_bound (v : Word) : (s.setCmd v).bound = s.bound := rfl
@[simp] theorem State.setCmd_buf (v : Word) : (s.setCmd v).buf = s.buf := rfl
@[simp] theorem State.setCmd_port (v : Word) : (s.setCmd v).port = s.port := rfl
@[simp] theorem State.setCmd_response (v : Word) : (s.setCmd v).response = s.response := rfl

@[simp] theorem State.setOpa_params (v : Word) : (s.setOpa v).params = s.params := rfl
@[simp] theorem State.setOpa_cmd (v : Word) : (s.setOpa v).cmd = s.cmd := rfl
@[simp] theorem State.setOpa_opa (v : Word) : (s.setOpa v).opa = v := rfl
@[simp] theorem State.setOpa_opb (v : Word) : (s.setOpa v).opb = s.opb := rfl
@[simp] theorem State.setOpa_result (v : Word) : (s.setOpa v).result = s.result := rfl
@[simp] theorem State.setOpa_err (v : Word) : (s.setOpa v).err = s.err := rfl
@[simp] theorem State.setOpa_fmt (v : Word) : (s.setOpa v).fmt = s.fmt := rfl
@[simp] theorem State.setOpa_count (v : Word) : (s.setOpa v).count = s.count := rfl
@[simp] theorem State.setOpa_dec (v : Word) : (s.setOpa v).dec = s.dec := rfl
@[simp] theorem State.setOpa_bound (v : Word) : (s.setOpa v).bound = s.bound := rfl
@[simp] theorem State.setOpa_buf (v : Word) : (s.setOpa v).buf = s.buf := rfl
@[simp] theorem State.setOpa_port (v : Word) : (s.setOpa v).port = s.port := rfl
@[simp] theorem State.setOpa_response (v : Word) : (s.setOpa v).response = s.response := rfl

@[simp] theorem State.setOpb_params (v : Word) : (s.setOpb v).params = s.params := rfl
@[simp] theorem State.setOpb_cmd (v : Word) : (s.setOpb v).cmd = s.cmd := rfl
@[simp] theorem State.setOpb_opa (v : Word) : (s.setOpb v).opa = s.opa := rfl
@[simp] theorem State.setOpb_opb (v : Word) : (s.setOpb v).opb = v := rfl
@[simp] theorem State.setOpb_result (v : Word) : (s.setOpb v).result = s.result := rfl
@[simp] theorem State.setOpb_err (v : Word) : (s.setOpb v).err = s.err := rfl
@[simp] theorem State.setOpb_fmt (v : Word) : (s.setOpb v).fmt = s.fmt := rfl
@[simp] theorem State.setOpb_count (v : Word) : (s.setOpb v).count = s.count := rfl
@[simp] theorem State.setOpb_dec (v : Word) : (s.setOpb v).dec = s.dec := rfl
@[simp] theorem State.setOpb_bound (v : Word) : (s.setOpb v).bound = s.bound := rfl
@[simp] theorem State.setOpb_buf (v : Word) : (s.setOpb v).buf = s.buf := rfl
@[simp] theorem State.setOpb_port (v : Word) : (s.setOpb v).port = s.port := rfl
@[simp] theorem State.setOpb_response (v : Word) : (s.setOpb v).response = s.response := rfl

@[simp] theorem State.setResult_params (v : Word) : (s.setResult v).params = s.params := rfl
@[simp] theorem State.setResult_cmd (v : Word) : (s.setResult v).cmd = s.cmd := rfl
@[simp] theorem State.setResult_opa (v : Word) : (s.setResult v).opa = s.opa := rfl
@[simp] theorem State.setResult_opb (v : Word) : (s.setResult v).opb = s.opb := rfl
@[simp] theorem State.setResult_result (v : Word) : (s.setResult v).result = v := rfl
@[simp] theorem State.setResult_err (v : Word) : (s.setResult v).err = s.err := rfl
@[simp] theorem State.setResult_fmt (v : Word) : (s.setResult v).fmt = s.fmt := rfl
@[simp] theorem State.setResult_count (v : Word) : (s.setResult v).count = s.count := rfl
@[simp] theorem State.setResult_dec (v : Word) : (s.setResult v).dec = s.dec := rfl
@[simp] theorem State.setResult_bound (v : Word) : (s.setResult v).bound = s.bound := rfl
@[simp] theorem State.setResult_buf (v : Word) : (s.setResult v).buf = s.buf := rfl
@[simp] theorem State.setResult_port (v : Word) : (s.setResult v).port = s.port := rfl
@[simp] theorem State.setResult_response (v : Word) : (s.setResult v).response = s.response := rfl

@[simp] theorem State.setErr_params (e : BitVec 4) : (s.setErr e).params = s.params := rfl
@[simp] theorem State.setErr_cmd (e : BitVec 4) : (s.setErr e).cmd = s.cmd := rfl
@[simp] theorem State.setErr_opa (e : BitVec 4) : (s.setErr e).opa = s.opa := rfl
@[simp] theorem State.setErr_opb (e : BitVec 4) : (s.setErr e).opb = s.opb := rfl
@[simp] theorem State.setErr_result (e : BitVec 4) : (s.setErr e).result = s.result := rfl
@[simp] theorem State.setErr_err (e : BitVec 4) : (s.setErr e).err = e := rfl
@[simp] theorem State.setErr_fmt (e : BitVec 4) : (s.setErr e).fmt = s.fmt := rfl
@[simp] theorem State.setErr_count (e : BitVec 4) : (s.setErr e).count = s.count := rfl
@[simp] theorem State.setErr_dec (e : BitVec 4) : (s.setErr e).dec = s.dec := rfl
@[simp] theorem State.setErr_bound (e : BitVec 4) : (s.setErr e).bound = s.bound := rfl
@[simp] theorem State.setErr_buf (e : BitVec 4) : (s.setErr e).buf = s.buf := rfl
@[simp] theorem State.setErr_port (e : BitVec 4) : (s.setErr e).port = s.port := rfl
@[simp] theorem State.setErr_response (e : BitVec 4) : (s.setErr e).response = s.response := rfl

@[simp] theorem State.setFmt_params (v : Word) : (s.setFmt v).params = s.params := rfl
@[simp] theorem State.setFmt_cmd (v : Word) : (s.setFmt v).cmd = s.cmd := rfl
@[simp] theorem State.setFmt_opa (v : Word) : (s.setFmt v).opa = s.opa := rfl
@[simp] theorem State.setFmt_opb (v : Word) : (s.setFmt v).opb = s.opb := rfl
@[simp] theorem State.setFmt_result (v : Word) : (s.setFmt v).result = s.result := rfl
@[simp] theorem State.setFmt_err (v : Word) : (s.setFmt v).err = s.err := rfl
@[simp] theorem State.setFmt_fmt (v : Word) : (s.setFmt v).fmt = v.extractLsb' 0 3 := rfl
@[simp] theorem State.setFmt_count (v : Word) : (s.setFmt v).count = s.count := rfl
@[simp] theorem State.setFmt_dec (v : Word) : (s.setFmt v).dec = s.dec := rfl
@[simp] theorem State.setFmt_bound (v : Word) : (s.setFmt v).bound = s.bound := rfl
@[simp] theorem State.setFmt_buf (v : Word) : (s.setFmt v).buf = s.buf := rfl
@[simp] theorem State.setFmt_port (v : Word) : (s.setFmt v).port = s.port := rfl
@[simp] theorem State.setFmt_response (v : Word) : (s.setFmt v).response = s.response := rfl

@[simp] theorem State.setCount_params (v : Word) : (s.setCount v).params = s.params := rfl
@[simp] theorem State.setCount_cmd (v : Word) : (s.setCount v).cmd = s.cmd := rfl
@[simp] theorem State.setCount_opa (v : Word) : (s.setCount v).opa = s.opa := rfl
@[simp] theorem State.setCount_opb (v : Word) : (s.setCount v).opb = s.opb := rfl
@[simp] theorem State.setCount_result (v : Word) : (s.setCount v).result = s.result := rfl
@[simp] theorem State.setCount_err (v : Word) : (s.setCount v).err = s.err := rfl
@[simp] theorem State.setCount_fmt (v : Word) : (s.setCount v).fmt = s.fmt := rfl
@[simp] theorem State.setCount_count (v : Word) : (s.setCount v).count = clampCount v := rfl
@[simp] theorem State.setCount_dec (v : Word) : (s.setCount v).dec = s.dec := rfl
@[simp] theorem State.setCount_bound (v : Word) : (s.setCount v).bound = s.bound := rfl
@[simp] theorem State.setCount_buf (v : Word) : (s.setCount v).buf = s.buf := rfl
@[simp] theorem State.setCount_port (v : Word) : (s.setCount v).port = s.port := rfl
@[simp] theorem State.setCount_response (v : Word) : (s.setCount v).response = s.response := rfl

@[simp] theorem State.setDec_params (v : Word) : (s.setDec v).params = s.params := rfl
@[simp] theorem State.setDec_cmd (v : Word) : (s.setDec v).cmd = s.cmd := rfl
@[simp] theorem State.setDec_opa (v : Word) : (s.setDec v).opa = s.opa := rfl
@[simp] theorem State.setDec_opb (v : Word) : (s.setDec v).opb = s.opb := rfl
@[simp] theorem State.setDec_result (v : Word) : (s.setDec v).result = s.result := rfl
@[simp] theorem State.setDec_err (v : Word) : (s.setDec v).err = s.err := rfl
@[simp] theorem State.setDec_fmt (v : Word) : (s.setDec v).fmt = s.fmt := rfl
@[simp] theorem State.setDec_count (v : Word) : (s.setDec v).count = s.count := rfl
@[simp] theorem State.setDec_dec (v : Word) : (s.setDec v).dec = v := rfl
@[simp] theorem State.setDec_bound (v : Word) : (s.setDec v).bound = s.bound := rfl
@[simp] theorem State.setDec_buf (v : Word) : (s.setDec v).buf = s.buf := rfl
@[simp] theorem State.setDec_port (v : Word) : (s.setDec v).port = s.port := rfl
@[simp] theorem State.setDec_response (v : Word) : (s.setDec v).response = s.response := rfl

@[simp] theorem State.setBound_params (k : BoundSel) (v : Word) : (s.setBound k v).params = s.params := rfl
@[simp] theorem State.setBound_cmd (k : BoundSel) (v : Word) : (s.setBound k v).cmd = s.cmd := rfl
@[simp] theorem State.setBound_opa (k : BoundSel) (v : Word) : (s.setBound k v).opa = s.opa := rfl
@[simp] theorem State.setBound_opb (k : BoundSel) (v : Word) : (s.setBound k v).opb = s.opb := rfl
@[simp] theorem State.setBound_result (k : BoundSel) (v : Word) : (s.setBound k v).result = s.result := rfl
@[simp] theorem State.setBound_err (k : BoundSel) (v : Word) : (s.setBound k v).err = s.err := rfl
@[simp] theorem State.setBound_fmt (k : BoundSel) (v : Word) : (s.setBound k v).fmt = s.fmt := rfl
@[simp] theorem State.setBound_count (k : BoundSel) (v : Word) : (s.setBound k v).count = s.count := rfl
@[simp] theorem State.setBound_dec (k : BoundSel) (v : Word) : (s.setBound k v).dec = s.dec := rfl
@[simp] theorem State.setBound_bound (k : BoundSel) (v : Word) : (s.setBound k v).bound = s.bound.set k v := rfl
@[simp] theorem State.setBound_buf (k : BoundSel) (v : Word) : (s.setBound k v).buf = s.buf := rfl
@[simp] theorem State.setBound_port (k : BoundSel) (v : Word) : (s.setBound k v).port = s.port := rfl
@[simp] theorem State.setBound_response (k : BoundSel) (v : Word) : (s.setBound k v).response = s.response := rfl

@[simp] theorem State.setBuf_params (m : Memory) : (s.setBuf m).params = s.params := rfl
@[simp] theorem State.setBuf_cmd (m : Memory) : (s.setBuf m).cmd = s.cmd := rfl
@[simp] theorem State.setBuf_opa (m : Memory) : (s.setBuf m).opa = s.opa := rfl
@[simp] theorem State.setBuf_opb (m : Memory) : (s.setBuf m).opb = s.opb := rfl
@[simp] theorem State.setBuf_result (m : Memory) : (s.setBuf m).result = s.result := rfl
@[simp] theorem State.setBuf_err (m : Memory) : (s.setBuf m).err = s.err := rfl
@[simp] theorem State.setBuf_fmt (m : Memory) : (s.setBuf m).fmt = s.fmt := rfl
@[simp] theorem State.setBuf_count (m : Memory) : (s.setBuf m).count = s.count := rfl
@[simp] theorem State.setBuf_dec (m : Memory) : (s.setBuf m).dec = s.dec := rfl
@[simp] theorem State.setBuf_bound (m : Memory) : (s.setBuf m).bound = s.bound := rfl
@[simp] theorem State.setBuf_buf (m : Memory) : (s.setBuf m).buf = m := rfl
@[simp] theorem State.setBuf_port (m : Memory) : (s.setBuf m).port = s.port := rfl
@[simp] theorem State.setBuf_response (m : Memory) : (s.setBuf m).response = s.response := rfl

@[simp] theorem State.setPort_params (evs : List HostEvent) : (s.setPort evs).params = s.params := rfl
@[simp] theorem State.setPort_cmd (evs : List HostEvent) : (s.setPort evs).cmd = s.cmd := rfl
@[simp] theorem State.setPort_opa (evs : List HostEvent) : (s.setPort evs).opa = s.opa := rfl
@[simp] theorem State.setPort_opb (evs : List HostEvent) : (s.setPort evs).opb = s.opb := rfl
@[simp] theorem State.setPort_result (evs : List HostEvent) : (s.setPort evs).result = s.result := rfl
@[simp] theorem State.setPort_err (evs : List HostEvent) : (s.setPort evs).err = s.err := rfl
@[simp] theorem State.setPort_fmt (evs : List HostEvent) : (s.setPort evs).fmt = s.fmt := rfl
@[simp] theorem State.setPort_count (evs : List HostEvent) : (s.setPort evs).count = s.count := rfl
@[simp] theorem State.setPort_dec (evs : List HostEvent) : (s.setPort evs).dec = s.dec := rfl
@[simp] theorem State.setPort_bound (evs : List HostEvent) : (s.setPort evs).bound = s.bound := rfl
@[simp] theorem State.setPort_buf (evs : List HostEvent) : (s.setPort evs).buf = s.buf := rfl
@[simp] theorem State.setPort_port (evs : List HostEvent) : (s.setPort evs).port = evs := rfl
@[simp] theorem State.setPort_response (evs : List HostEvent) : (s.setPort evs).response = s.response := rfl

@[simp] theorem State.respond_params (r : BusResponse) : (s.respond r).params = s.params := rfl
@[simp] theorem State.respond_cmd (r : BusResponse) : (s.respond r).cmd = s.cmd := rfl
@[simp] theorem State.respond_opa (r : BusResponse) : (s.respond r).opa = s.opa := rfl
@[simp] theorem State.respond_opb (r : BusResponse) : (s.respond r).opb = s.opb := rfl
@[simp] theorem State.respond_result (r : BusResponse) : (s.respond r).result = s.result := rfl
@[simp] theorem State.respond_err (r : BusResponse) : (s.respond r).err = s.err := rfl
@[simp] theorem State.respond_fmt (r : BusResponse) : (s.respond r).fmt = s.fmt := rfl
@[simp] theorem State.respond_count (r : BusResponse) : (s.respond r).count = s.count := rfl
@[simp] theorem State.respond_dec (r : BusResponse) : (s.respond r).dec = s.dec := rfl
@[simp] theorem State.respond_bound (r : BusResponse) : (s.respond r).bound = s.bound := rfl
@[simp] theorem State.respond_buf (r : BusResponse) : (s.respond r).buf = s.buf := rfl
@[simp] theorem State.respond_port (r : BusResponse) : (s.respond r).port = s.port := rfl
@[simp] theorem State.respond_response (r : BusResponse) : (s.respond r).response = some r := rfl

@[simp] theorem State.resetEvent_params : s.resetEvent.params = s.params := rfl
@[simp] theorem State.resetEvent_cmd : s.resetEvent.cmd = 0 := rfl
@[simp] theorem State.resetEvent_opa : s.resetEvent.opa = 0 := rfl
@[simp] theorem State.resetEvent_opb : s.resetEvent.opb = 0 := rfl
@[simp] theorem State.resetEvent_result : s.resetEvent.result = 0 := rfl
@[simp] theorem State.resetEvent_err : s.resetEvent.err = 0 := rfl
@[simp] theorem State.resetEvent_fmt : s.resetEvent.fmt = 0 := rfl
@[simp] theorem State.resetEvent_count : s.resetEvent.count = 0 := rfl
@[simp] theorem State.resetEvent_dec : s.resetEvent.dec = 0 := rfl
@[simp] theorem State.resetEvent_bound : s.resetEvent.bound = Bounds.reset := rfl
@[simp] theorem State.resetEvent_buf : s.resetEvent.buf = [] := rfl
@[simp] theorem State.resetEvent_port : s.resetEvent.port = s.port := rfl
@[simp] theorem State.resetEvent_response : s.resetEvent.response = none := rfl

@[simp] theorem State.withPort_eta : s.setPort s.port = s := rfl

end Sys2Proof.Machine
end

