-- ==== Sys2Proof/Laws/Exec.lean ====
section
/-! SUPPORT. What ending a command does, and what a command can do: everything a later proof needs of
`finish`, `raise` and `exec` without unfolding them. -/

namespace Sys2Proof.Machine

theorem finish_eq (v : Word) (s : State) : finish v s = .next { s with result := v, err := 0 } := rfl

theorem raise_eq (e : CmdError) (s : State) : raise e s = .next { s with err := errCode e } := rfl

theorem errCode_ne_zero (e : CmdError) : errCode e ≠ 0 := by cases e <;> decide

theorem errCode_le (e : CmdError) : (errCode e).toNat ≤ 3 := by cases e <;> decide

/-- DECODE ends by `raise` or by `finish`. -/
theorem execDecode_cases (s : State) :
    (∃ e, decodeValue s.params.byteOrder s.fmt s.count.val (min s.dec.toNat 48) s.buf s.opa.toNat = .error e ∧
      execDecode s = raise e s) ∨
    (∃ z, decodeValue s.params.byteOrder s.fmt s.count.val (min s.dec.toNat 48) s.buf s.opa.toNat = .ok z ∧
      execDecode s = finish (enc32 z) s) := by
  unfold execDecode modeDecimals opIndex
  cases decodeValue s.params.byteOrder s.fmt s.count.val (min s.dec.toNat 48) s.buf s.opa.toNat with
  | error e => exact .inl ⟨e, rfl, rfl⟩
  | ok z => exact .inr ⟨z, rfl, rfl⟩

/-- A command ends in one of three ways: NOP's, `finish`, or `raise` of an error of DECODE. -/
theorem exec_cases (i : Instr) (s : State) :
    (i = .nop ∧ exec i s = .next (s.setErr okCode)) ∨
    (∃ v, exec i s = finish v s) ∨
    (i = .decode ∧ ∃ e, exec i s = raise e s) := by
  cases i with
  | nop => exact .inl ⟨rfl, rfl⟩
  | decode =>
    rcases execDecode_cases s with ⟨e, -, h⟩ | ⟨z, -, h⟩
    · exact .inr (.inr ⟨rfl, e, h⟩)
    · exact .inr (.inl ⟨_, h⟩)
  | _ => exact .inr (.inl ⟨_, rfl⟩)

/-- Every command answers a next state, which differs from the state before in RESULT and ERR at most. -/
theorem exec_next (i : Instr) (s : State) :
    ∃ v e, exec i s = .next { s with result := v, err := e } ∧ e.toNat ≤ 3 := by
  rcases exec_cases i s with ⟨-, h⟩ | ⟨v, h⟩ | ⟨-, e, h⟩
  · exact ⟨s.result, 0, h, by decide⟩
  · exact ⟨v, 0, h, by decide⟩
  · exact ⟨s.result, errCode e, h, errCode_le e⟩

end Sys2Proof.Machine
end

