-- ==== Sys2Proof/Laws/Memory.lean ====
section
/-! SUPPORT. The raw buffer: every operation keeps the canonical form, a read after a write gives the
byte written, a write leaves every other byte alone, and two canonical buffers that read alike are
equal. -/

namespace Sys2Proof.Machine

theorem wfFrom_cons {lo a : Nat} {b : Byte} {m : Memory} :
    Memory.wfFrom lo ((a, b) :: m) = true ↔
      lo ≤ a ∧ a < 32 ∧ b ≠ unlistedByte ∧ Memory.wfFrom (a + 1) m = true := by
  simp only [Memory.wfFrom, Bool.and_eq_true, decide_eq_true_eq, bne_iff_ne, and_assoc]
  rfl

theorem wfFrom_mono {lo lo' : Nat} {m : Memory} (h : lo' ≤ lo) (hm : Memory.wfFrom lo m = true) :
    Memory.wfFrom lo' m = true := by
  cases m with
  | nil => rfl
  | cons c m =>
    obtain ⟨a, b⟩ := c
    rw [wfFrom_cons] at hm ⊢
    exact ⟨by omega, hm.2⟩

/-- Below its lowest index a canonical buffer reads as unlisted. -/
theorem readByte_below {lo i : Nat} {m : Memory} (hm : Memory.wfFrom lo m = true) (h : i < lo) :
    readByte m i = unlistedByte := by
  induction m generalizing lo with
  | nil => rfl
  | cons c m ih =>
    obtain ⟨a, b⟩ := c
    rw [wfFrom_cons] at hm
    rw [readByte, if_neg (by omega)]
    exact ih hm.2.2.2 (by omega)

/-- No byte at or past index 32 is listed (10_state.md R30). -/
theorem readByte_outside {lo i : Nat} {m : Memory} (hm : Memory.wfFrom lo m = true) (h : 32 ≤ i) :
    readByte m i = unlistedByte := by
  induction m generalizing lo with
  | nil => rfl
  | cons c m ih =>
    obtain ⟨a, b⟩ := c
    rw [wfFrom_cons] at hm
    rw [readByte, if_neg (by omega)]
    exact ih hm.2.2.2

theorem readByte_consByte {lo i j : Nat} {b : Byte} {m : Memory} (hm : Memory.wfFrom lo m = true)
    (h : i < lo) : readByte (consByte i b m) j = if j = i then b else readByte m j := by
  unfold consByte
  split
  · split
    · subst_vars; exact readByte_below hm h
    · rfl
  · rw [readByte]; simp only [eq_comm]

theorem consByte_wfFrom {lo i : Nat} {b : Byte} {m : Memory} (hm : Memory.wfFrom (i + 1) m = true)
    (h : lo ≤ i) (hi : i < 32) : Memory.wfFrom lo (consByte i b m) = true := by
  unfold consByte
  split
  · exact wfFrom_mono (by omega) hm
  · rw [wfFrom_cons]; exact ⟨h, hi, by assumption, hm⟩

theorem writeByte_wfFrom {lo i : Nat} {b : Byte} {m : Memory} (hm : Memory.wfFrom lo m = true)
    (h : lo ≤ i) (hi : i < 32) : Memory.wfFrom lo (writeByte m i b) = true := by
  induction m generalizing lo with
  | nil => exact consByte_wfFrom rfl h hi
  | cons c m ih =>
    obtain ⟨a, d⟩ := c
    have hc := wfFrom_cons.mp hm
    unfold writeByte
    split
    · exact consByte_wfFrom (wfFrom_cons.mpr ⟨by omega, hc.2⟩) h hi
    · split
      · subst_vars; exact consByte_wfFrom hc.2.2.2 h hi
      · rw [wfFrom_cons]; exact ⟨hc.1, hc.2.1, hc.2.2.1, ih hc.2.2.2 (by omega)⟩

/-- Writing a byte of the buffer keeps its canonical form. -/
theorem writeByte_wf {i : Nat} {b : Byte} {m : Memory} (hm : Memory.wf m = true) (hi : i < 32) :
    Memory.wf (writeByte m i b) = true :=
  writeByte_wfFrom hm (Nat.zero_le i) hi

theorem readByte_writeByte_from {lo i j : Nat} {b : Byte} {m : Memory} (hm : Memory.wfFrom lo m = true) :
    readByte (writeByte m i b) j = if j = i then b else readByte m j := by
  induction m generalizing lo with
  | nil => exact readByte_consByte (lo := i + 1) rfl (by omega)
  | cons c m ih =>
    obtain ⟨a, d⟩ := c
    have hc := wfFrom_cons.mp hm
    unfold writeByte
    split
    · exact readByte_consByte (lo := a) (wfFrom_cons.mpr ⟨le_refl a, hc.2⟩) (by assumption)
    · split
      · subst_vars
        rw [readByte_consByte hc.2.2.2 (by omega)]
        simp only [readByte]
        split <;> rename_i h
        · rfl
        · rw [if_neg (fun h' => h h'.symm)]
      · simp only [readByte, ih hc.2.2.2]
        split <;> rename_i h
        · rw [if_neg (by omega)]
        · rfl

/-- A byte reads as it was written, and every other byte as before. -/
theorem readByte_writeByte {i j : Nat} {b : Byte} {m : Memory} (hm : Memory.wf m = true) :
    readByte (writeByte m i b) j = if j = i then b else readByte m j :=
  readByte_writeByte_from hm

/-- Writing bytes inside the buffer keeps its canonical form. -/
theorem bufWrite_wf {off : Nat} {bs : List Byte} {m : Memory} (hm : Memory.wf m = true)
    (h : off + bs.length ≤ 32) : Memory.wf (bufWrite m off bs) = true := by
  induction bs generalizing m off with
  | nil => exact hm
  | cons b bs ih =>
    simp only [List.length_cons] at h
    exact ih (writeByte_wf hm (by omega)) (by omega)

/-- BufWrite stores byte j at off + j and leaves every other byte alone. -/
theorem readByte_bufWrite {off a : Nat} {bs : List Byte} {m : Memory} (hm : Memory.wf m = true)
    (h : off + bs.length ≤ 32) :
    readByte (bufWrite m off bs) a =
      if off ≤ a then (bs[a - off]?).getD (readByte m a) else readByte m a := by
  induction bs generalizing m off with
  | nil => simp [bufWrite]
  | cons b bs ih =>
    simp only [List.length_cons] at h
    rw [bufWrite, ih (writeByte_wf hm (by omega)) (by omega), readByte_writeByte hm]
    rcases lt_trichotomy a off with h1 | h1 | h1
    · simp [show ¬ off + 1 ≤ a by omega, show ¬ off ≤ a by omega, show a ≠ off by omega]
    · subst h1; simp
    · simp only [show off + 1 ≤ a by omega, show off ≤ a by omega, show a ≠ off by omega, if_true, if_false]
      obtain ⟨k, hk⟩ : ∃ k, a - off = k + 1 := ⟨a - off - 1, by omega⟩
      rw [hk, List.getElem?_cons_succ, show a - (off + 1) = k by omega]

@[simp] theorem bufRead_length (m : Memory) (off n : Nat) : (bufRead m off n).length = n := by
  induction n generalizing off with
  | zero => rfl
  | succ n ih => simp [bufRead, ih]

theorem bufRead_getElem? (m : Memory) (off n j : Nat) :
    (bufRead m off n)[j]? = if j < n then some (readByte m (off + j)) else none := by
  induction n generalizing off j with
  | zero => simp [bufRead]
  | succ n ih =>
    cases j with
    | zero => simp [bufRead]
    | succ j => simp [bufRead, ih, Nat.add_assoc, Nat.add_comm 1 j]

/-- BufRead depends on the bytes it reads and on nothing else. -/
theorem bufRead_congr {m m' : Memory} {off n : Nat}
    (h : ∀ a, off ≤ a → a < off + n → readByte m a = readByte m' a) :
    bufRead m off n = bufRead m' off n := by
  induction n generalizing off with
  | zero => rfl
  | succ n ih =>
    simp only [bufRead]
    rw [h off (le_refl _) (by omega), ih (fun a h1 h2 => h a (by omega) (by omega))]

@[simp] theorem laneBytes_length (data : Word) (lo n : Nat) : (laneBytes data lo n).length = n := by
  induction n generalizing lo with
  | zero => rfl
  | succ n ih => simp [laneBytes, ih]

theorem laneBytes_getElem? (data : Word) (lo n j : Nat) :
    (laneBytes data lo n)[j]? = if j < n then some (data.extractLsb' (lo + 8 * j) 8) else none := by
  induction n generalizing lo j with
  | zero => simp [laneBytes]
  | succ n ih =>
    cases j with
    | zero => simp [laneBytes]
    | succ j =>
      simp only [laneBytes, List.getElem?_cons_succ, ih, Nat.add_lt_add_iff_right]
      rw [show lo + 8 + 8 * j = lo + 8 * (j + 1) by omega]

/-- Two canonical buffers that read alike at every index are the same list. -/
theorem wfFrom_ext {lo : Nat} {m m' : Memory} (hm : Memory.wfFrom lo m = true)
    (hm' : Memory.wfFrom lo m' = true) (h : ∀ i, readByte m i = readByte m' i) : m = m' := by
  induction m generalizing lo m' with
  | nil =>
    cases m' with
    | nil => rfl
    | cons c m' =>
      obtain ⟨a, b⟩ := c
      have hc := wfFrom_cons.mp hm'
      have := h a
      simp only [readByte, if_pos] at this
      exact absurd this.symm hc.2.2.1
  | cons c m ih =>
    obtain ⟨a, b⟩ := c
    have hc := wfFrom_cons.mp hm
    have hab : readByte m' a = b := by rw [← h a]; simp [readByte]
    cases m' with
    | nil => exact absurd (by simpa [readByte] using hab.symm) hc.2.2.1
    | cons c' m' =>
      obtain ⟨a', b'⟩ := c'
      have hc' := wfFrom_cons.mp hm'
      have hab' : readByte ((a, b) :: m) a' = b' := by rw [h a']; simp [readByte]
      have haa : a = a' := by
        rcases lt_trichotomy a a' with g | g | g
        · rw [readByte, if_neg (by omega), readByte_below hc'.2.2.2 (by omega)] at hab
          exact absurd hab.symm hc.2.2.1
        · exact g
        · rw [readByte, if_neg (by omega), readByte_below hc.2.2.2 (by omega)] at hab'
          exact absurd hab'.symm hc'.2.2.1
      subst haa
      have hb : b' = b := by simpa [readByte] using hab
      subst hb
      congr 1
      refine ih hc.2.2.2 hc'.2.2.2 (fun i => ?_)
      by_cases hi : i < a + 1
      · rw [readByte_below hc.2.2.2 hi, readByte_below hc'.2.2.2 hi]
      · have := h i
        rwa [readByte, readByte, if_neg (by omega), if_neg (by omega)] at this

theorem wf_ext {m m' : Memory} (hm : Memory.wf m = true) (hm' : Memory.wf m' = true)
    (h : ∀ i, readByte m i = readByte m' i) : m = m' :=
  wfFrom_ext hm hm' h

end Sys2Proof.Machine
end

