-- ==== Sys2Proof/Laws/PerInstr.lean ====
section
/-! SUPPORT. The family EncodesLegally: the word of every instruction is one of the format's legal words
(30_encoding.md R83, R84), one lemma per constructor. -/

namespace Sys2Proof.Laws.EncodesLegally

/-- The fields of the instruction's word pass the checks of 30_encoding.md R84, and OP and SEL read back. -/
def Statement (i : Instr) : Prop :=
  (fieldsOf (encode i)).wellFormed = true ∧ (fieldsOf (encode i)).op = i.op ∧ (fieldsOf (encode i)).sel = i.sel

theorem nop : Statement .nop := ⟨by decide, by decide, by decide⟩

theorem f2x : Statement .f2x := ⟨by decide, by decide, by decide⟩

theorem x2f : Statement .x2f := ⟨by decide, by decide, by decide⟩

theorem decode : Statement .decode := ⟨by decide, by decide, by decide⟩

theorem rdboundRawMin : Statement .rdboundRawMin := ⟨by decide, by decide, by decide⟩

theorem rdboundRawMax : Statement .rdboundRawMax := ⟨by decide, by decide, by decide⟩

theorem rdboundPctMin : Statement .rdboundPctMin := ⟨by decide, by decide, by decide⟩

theorem rdboundPctMax : Statement .rdboundPctMax := ⟨by decide, by decide, by decide⟩

theorem rdboundSiMin : Statement .rdboundSiMin := ⟨by decide, by decide, by decide⟩

theorem rdboundSiMax : Statement .rdboundSiMax := ⟨by decide, by decide, by decide⟩

end Sys2Proof.Laws.EncodesLegally
end

