-- ==== Sys2Proof/Laws/Step.lean ====
section
/-! SUPPORT. The host port: the window, which accesses are admitted, and everything one step can do. -/

namespace Sys2Proof.Machine

theorem offsetOf_add (p : Params) {off : Nat} (h : off < 256) : offsetOf p (p.base + off) = some off := by
  unfold offsetOf Config.windowBytes
  rw [if_pos (by omega)]
  simp

theorem offsetOf_base (p : Params) : offsetOf p p.base = some 0 := offsetOf_add p (off := 0) (by decide)

theorem offsetOf_eq_some {p : Params} {addr off : Nat} :
    offsetOf p addr = some off ↔ addr = p.base + off ∧ off < 256 := by
  unfold offsetOf Config.windowBytes
  split
  · simp only [Option.some.injEq]; omega
  · simp only [reduceCtorEq, false_iff]; omega

theorem offsetOf_eq_none {p : Params} {addr : Nat} :
    offsetOf p addr = none ↔ ¬ (p.base ≤ addr ∧ addr < p.base + 256) := by
  unfold offsetOf Config.windowBytes
  split
  · simp only [reduceCtorEq, false_iff]; omega
  · simp only [true_iff]; assumption

theorem widthBytes_pos (n : Width) : 0 < widthBytes n := by cases n <;> decide

theorem widthBytes_le (n : Width) : widthBytes n ≤ 4 := by cases n <;> decide

/-- An access that reaches a control register is a 32-bit one, at a multiple of 4 below 0x38. -/
theorem regTarget_eq_some {off : Nat} {n : Width} {r : CtrlReg} (h : regTarget off n = some r) :
    n = .w32 ∧ ctrlRegAt off = some r := by
  cases n <;> simp_all [regTarget]

theorem ctrlRegAt_isSome {off : Nat} : (ctrlRegAt off).isSome = true ↔ off % 4 = 0 ∧ off < 0x38 := by
  by_cases h : off < 0x38
  · interval_cases off <;> simp [ctrlRegAt]
  · constructor
    · intro hs
      unfold ctrlRegAt at hs
      split at hs <;> first | omega | simp at hs
    · omega

theorem regTarget_eq_none {off : Nat} {n : Width} :
    regTarget off n = none ↔ ¬ (n = .w32 ∧ off % 4 = 0 ∧ off < 0x38) := by
  cases n
  · simp [regTarget]
  · simp [regTarget]
  · rw [show regTarget off .w32 = ctrlRegAt off from rfl, ← Option.not_isSome_iff_eq_none, ctrlRegAt_isSome]
    simp

theorem bufTarget_eq_some {off : Nat} {n : Width} {i : Nat} :
    bufTarget off n = some i ↔
      off % widthBytes n = 0 ∧ 0x40 ≤ off ∧ off + widthBytes n ≤ 0x60 ∧ i = off - 0x40 := by
  unfold bufTarget
  split
  · simp only [Option.some.injEq]; omega
  · simp only [reduceCtorEq, false_iff]; omega

theorem bufTarget_eq_none {off : Nat} {n : Width} :
    bufTarget off n = none ↔ ¬ (off % widthBytes n = 0 ∧ 0x40 ≤ off ∧ off + widthBytes n ≤ 0x60) := by
  simp [bufTarget]

/-- A buffer access reaches no control register. -/
theorem regTarget_of_buf {off : Nat} {n : Width} (h : 0x40 ≤ off) : regTarget off n = none := by
  rw [regTarget_eq_none]; omega

/-- A CMD write completes: CMD holds the word, and beside it RESULT and ERR at most have changed. -/
theorem runCommand_next (w : Word) (s : State) :
    ∃ v e, runCommand w s = .next { s with cmd := w, result := v, err := e } ∧ e.toNat ≤ 3 := by
  unfold runCommand
  cases decodeWord w with
  | none => exact ⟨s.result, 3, rfl, by decide⟩
  | some i =>
    obtain ⟨v, e, h, he⟩ := exec_next i (s.setCmd w)
    exact ⟨v, e, h, he⟩

/-- What a host write of the window can do to the state it is served in. -/
inductive WriteEffect (s : State) (off : Nat) (n : Width) (data : Word) : State → Prop where
  | busError : WriteEffect s off n data (s.respond .writeError)
  | cmd (v e) (hn : n = .w32) (ho : off = 0x00) (he : e.toNat ≤ 3) :
      WriteEffect s off n data { s with response := some .writeDone, cmd := data, result := v, err := e }
  | opa (hn : n = .w32) (ho : off = 0x04) : WriteEffect s off n data ((s.setOpa data).respond .writeDone)
  | opb (hn : n = .w32) (ho : off = 0x08) : WriteEffect s off n data ((s.setOpb data).respond .writeDone)
  | modeFmt (hn : n = .w32) (ho : off = 0x14) : WriteEffect s off n data ((s.setFmt data).respond .writeDone)
  | modeCount (hn : n = .w32) (ho : off = 0x18) : WriteEffect s off n data ((s.setCount data).respond .writeDone)
  | modeDec (hn : n = .w32) (ho : off = 0x1C) : WriteEffect s off n data ((s.setDec data).respond .writeDone)
  | bound (k) (hn : n = .w32) (ho : ctrlRegAt off = some (.bound k)) :
      WriteEffect s off n data ((s.setBound k data).respond .writeDone)
  | buf (ha : off % widthBytes n = 0) (hl : 0x40 ≤ off) (hh : off + widthBytes n ≤ 0x60) :
      WriteEffect s off n data
        ((s.setBuf (bufWrite s.buf (off - 0x40) (laneBytes data 0 (widthBytes n)))).respond .writeDone)

/-- The offset of a control register that is not a bound. -/
theorem ctrlRegAt_inv {off : Nat} {r : CtrlReg} (h : ctrlRegAt off = some r) :
    match r with
    | .cmd => off = 0x00
    | .opa => off = 0x04
    | .opb => off = 0x08
    | .result => off = 0x0C
    | .status => off = 0x10
    | .modeFmt => off = 0x14
    | .modeCount => off = 0x18
    | .modeDec => off = 0x1C
    | .bound .rawMin => off = 0x20
    | .bound .rawMax => off = 0x24
    | .bound .pctMin => off = 0x28
    | .bound .pctMax => off = 0x2C
    | .bound .siMin => off = 0x30
    | .bound .siMax => off = 0x34 := by
  unfold ctrlRegAt at h
  split at h <;> first | (cases h; rfl) | cases h

/-- Every host write of the window completes, with one of the effects of `WriteEffect`. -/
theorem hostWrite_next (off : Nat) (n : Width) (data : Word) (s : State) :
    ∃ t, hostWrite off n data s = .next t ∧ WriteEffect s off n data t := by
  unfold hostWrite
  cases hr : regTarget off n with
  | some r =>
    obtain ⟨hn, ho⟩ := regTarget_eq_some hr
    have hi := ctrlRegAt_inv ho
    cases r with
    | cmd =>
      obtain ⟨v, e, h, he⟩ := runCommand_next data (s.respond .writeDone)
      exact ⟨_, h, .cmd v e hn hi he⟩
    | opa => exact ⟨_, rfl, .opa hn hi⟩
    | opb => exact ⟨_, rfl, .opb hn hi⟩
    | result => exact ⟨_, rfl, .busError⟩
    | status => exact ⟨_, rfl, .busError⟩
    | modeFmt => exact ⟨_, rfl, .modeFmt hn hi⟩
    | modeCount => exact ⟨_, rfl, .modeCount hn hi⟩
    | modeDec => exact ⟨_, rfl, .modeDec hn hi⟩
    | bound k => exact ⟨_, rfl, .bound k hn ho⟩
  | none =>
    cases hb : bufTarget off n with
    | some i =>
      obtain ⟨ha, hl, hh, rfl⟩ := bufTarget_eq_some.mp hb
      exact ⟨_, rfl, .buf ha hl hh⟩
    | none => exact ⟨_, rfl, .busError⟩

/-- Everything a step that answers a next state can have done. -/
theorem step_cases {s t : State} (h : step s = .next t) :
    (s.port = [] ∧ t = s) ∨
    (∃ rest, s.port = .reset :: rest ∧ t = (s.setPort rest).resetEvent) ∨
    (∃ off n data rest, off < 256 ∧ s.port = .write (s.params.base + off) n data :: rest ∧
      WriteEffect (s.setPort rest) off n data t) ∨
    (∃ off n rest, off < 256 ∧ s.port = .read (s.params.base + off) n :: rest ∧
      t = (s.setPort rest).respond (readResponse off n (s.setPort rest))) := by
  unfold step at h
  cases hp : s.port with
  | nil => rw [hp] at h; cases h; exact .inl ⟨rfl, rfl⟩
  | cons ev rest =>
    rw [hp] at h
    cases ev with
    | reset => cases h; exact .inr (.inl ⟨rest, rfl, rfl⟩)
    | write addr n data =>
      simp only [serve, State.setPort_params] at h
      cases ho : offsetOf s.params addr with
      | none => rw [ho] at h; cases h
      | some off =>
        rw [ho] at h
        obtain ⟨rfl, hlt⟩ := offsetOf_eq_some.mp ho
        obtain ⟨t', ht', he⟩ := hostWrite_next off n data (s.setPort rest)
        simp only [ht', Host.Outcome.next.injEq] at h
        subst h
        exact .inr (.inr (.inl ⟨off, n, data, rest, hlt, rfl, he⟩))
    | read addr n =>
      simp only [serve, State.setPort_params] at h
      cases ho : offsetOf s.params addr with
      | none => rw [ho] at h; cases h
      | some off =>
        rw [ho] at h
        obtain ⟨rfl, hlt⟩ := offsetOf_eq_some.mp ho
        cases h
        exact .inr (.inr (.inr ⟨off, n, rest, hlt, rfl, rfl⟩))

/-- A write of the window, as a step. -/
theorem step_write {s : State} {rest : List HostEvent} {off : Nat} {n : Width} {data : Word} (h : off < 256)
    (hp : s.port = .write (s.params.base + off) n data :: rest) :
    step s = hostWrite off n data (s.setPort rest) := by
  simp [step, hp, serve, offsetOf_add _ h]

/-- A read of the window, as a step. -/
theorem step_read {s : State} {rest : List HostEvent} {off : Nat} {n : Width} (h : off < 256)
    (hp : s.port = .read (s.params.base + off) n :: rest) :
    step s = .next ((s.setPort rest).respond (readResponse off n (s.setPort rest))) := by
  simp [step, hp, serve, offsetOf_add _ h]

/-- A write of CMD, as a step. -/
theorem step_cmd {s : State} {rest : List HostEvent} {w : Word}
    (hp : s.port = .write s.params.base .w32 w :: rest) :
    step s = runCommand w ((s.setPort rest).respond .writeDone) :=
  step_write (off := 0) (by decide) hp

/-- A 32-bit write at a control register's offset, as a step. -/
theorem step_writeReg {s : State} {rest : List HostEvent} {off : Nat} {v : Word} {r : CtrlReg}
    (hr : ctrlRegAt off = some r) (hp : s.port = .write (s.params.base + off) .w32 v :: rest) :
    step s = writeReg r v (s.setPort rest) := by
  have h : (ctrlRegAt off).isSome = true := by rw [hr]; rfl
  have := ctrlRegAt_isSome.mp h
  rw [step_write (by omega) hp, hostWrite, show regTarget off .w32 = some r from hr]

end Sys2Proof.Machine
end

