-- ==== Sys2Proof/Tests/Slice0.lean ====
section
/-! SUPPORT. Tests of the model on single steps. Expected values come from the spec: the words from
30_encoding.md R80 to R83, the results from 95_test_vectors.md (the section is named at each test).
The theorems named witness_<statement> show, for a statement with hypotheses, states and operands
that meet them together. -/

namespace Sys2Proof.Tests

open Sys2Proof.Machine

/-- A small state: reset, with operands, a mode and a buffer. -/
def st (opa opb : Word) (fmt : BitVec 3) (count : Fin 9) (dec : Word) (buf : Memory) : State :=
  { State.reset with opa := opa, opb := opb, fmt := fmt, count := count, dec := dec, buf := buf }

/-- The same state of a block built with BYTE_ORDER = BE. -/
def bigEndian (s : State) : State := { s with params := { s.params with byteOrder := .BE } }

/-- RESULT and ERR of a next state. -/
def resultErr : Host.Outcome State Fault Refusal → Option (Word × Nat)
  | .next t => some (t.result, t.err.toNat)
  | _ => none

/-- The port's answer in a next state. -/
def answer : Host.Outcome State Fault Refusal → Option BusResponse
  | .next t => t.response
  | _ => none

/-- The buffer of a next state. -/
def bufOf : Host.Outcome State Fault Refusal → Option Memory
  | .next t => some t.buf
  | _ => none

/-- A state with one event pending. -/
def pend (s : State) (ev : HostEvent) : State := s.setPort [ev]

/-! ### Decoding: every legal word written out from 30_encoding.md R80, R81, R82 -/

theorem test_decode_nop : decodeWord 0b0000000000000000000000000_000_0000#32 = some .nop := by decide
theorem test_decode_f2x : decodeWord 0b0000000000000000000000000_000_0001#32 = some .f2x := by decide
theorem test_decode_x2f : decodeWord 0b0000000000000000000000000_000_0010#32 = some .x2f := by decide
theorem test_decode_decode : decodeWord 0b0000000000000000000000000_000_0011#32 = some .decode := by decide
theorem test_decode_raw_min : decodeWord 0b0000000000000000000000000_000_0100#32 = some .rdboundRawMin := by decide
theorem test_decode_raw_max : decodeWord 0b0000000000000000000000000_001_0100#32 = some .rdboundRawMax := by decide
theorem test_decode_pct_min : decodeWord 0b0000000000000000000000000_010_0100#32 = some .rdboundPctMin := by decide
theorem test_decode_pct_max : decodeWord 0b0000000000000000000000000_011_0100#32 = some .rdboundPctMax := by decide
theorem test_decode_si_min : decodeWord 0b0000000000000000000000000_100_0100#32 = some .rdboundSiMin := by decide
theorem test_decode_si_max : decodeWord 0b0000000000000000000000000_101_0100#32 = some .rdboundSiMax := by decide

/-- The encoder gives the words of the table (30_encoding.md R83). -/
theorem test_encode_words :
    encode .nop = 0x00 ∧ encode .f2x = 0x01 ∧ encode .x2f = 0x02 ∧ encode .decode = 0x03 ∧
    encode .rdboundRawMin = 0x04 ∧ encode .rdboundRawMax = 0x14 ∧ encode .rdboundPctMin = 0x24 ∧
    encode .rdboundPctMax = 0x34 ∧ encode .rdboundSiMin = 0x44 ∧ encode .rdboundSiMax = 0x54 := by decide

/-- The illegal words of 95_test_vectors.md section 4.3. -/
theorem test_illegal_words :
    decodeWord 0x05 = none ∧ decodeWord 0x0F = none ∧ decodeWord 0x10 = none ∧ decodeWord 0x11 = none ∧
    decodeWord 0x64 = none ∧ decodeWord 0x74 = none ∧ decodeWord 0x80 = none ∧
    decodeWord 0x80000001 = none ∧ decodeWord 0xFFFFFFFF = none := by decide

/-! ### WellFormed: an ill-formed term for each check (30_encoding.md R84) -/

theorem test_wellFormed_reserved_op : (CommandFields.wellFormed { op := 5, sel := 0, rsv := 0 }) = false := by decide
theorem test_wellFormed_sel_without_rdbound : (CommandFields.wellFormed { op := 1, sel := 1, rsv := 0 }) = false := by decide
theorem test_wellFormed_sel_past_five : (CommandFields.wellFormed { op := 4, sel := 6, rsv := 0 }) = false := by decide
theorem test_wellFormed_rsv : (CommandFields.wellFormed { op := 0, sel := 0, rsv := 1 }) = false := by decide
theorem test_wellFormed_si_max : (CommandFields.wellFormed { op := 4, sel := 5, rsv := 0 }) = true := by decide

/-! ### Commands (95_test_vectors.md sections 3 and 4) -/

/-- 4.3: NOP keeps RESULT and clears ERR. -/
theorem test_nop_keeps_result :
    resultErr (exec .nop { State.reset with result := 0x69, err := 1 }) = some (0x69, 0) := by decide

/-- 3.1: -2.5 is a tie, -3. -/
theorem test_f2x_tie : resultErr (exec .f2x (st 0xC0200000 0 0 0 0 [])) = some (0xFFFFFFFD, 0) := by decide

/-- 3.1: 1.0 with the largest decimal count. -/
theorem test_f2x_largest_decimals :
    resultErr (exec .f2x (st 0x3F800000 0xFFFFFFFF 0 0 0 [])) = some (0x7FFFFFFF, 0) := by decide

/-- 3.2: 3.14, one halving. -/
theorem test_x2f_halving : resultErr (exec .x2f (st 0x13A 2 0 0 0 [])) = some (0x4048F5C2, 0) := by decide

/-- 3.2: -2^31 with 16 decimals, 23 doublings. -/
theorem test_x2f_doublings :
    resultErr (exec .x2f (st 0x80000000 16 0 0 0 [])) = some (0xB4000000, 0) := by decide

/-- 4.1: Float32 10.5 under BE. -/
theorem test_decode_float_be :
    resultErr (exec .decode (bigEndian (st 0 0 3 1 1 [(0, 0x41), (1, 0x28)]))) = some (0x69, 0) := by decide

/-- 4.1: IndexOutOfRange before UnsupportedFormat. -/
theorem test_decode_priority : resultErr (exec .decode (st 2 0 5 2 0 [])) = some (0, 1) := by decide

/-- A state with one bound and the decimals of section 4.2. -/
def bst (k : BoundSel) (v dec : Word) : State := (State.reset.setBound k v).setDec dec

theorem test_rdbound_raw_min : resultErr (exec .rdboundRawMin (bst .rawMin 0xC2200000 1)) = some (0xFFFFFE70, 0) := by decide
theorem test_rdbound_raw_max : resultErr (exec .rdboundRawMax (bst .rawMax 0x42C80000 0)) = some (100, 0) := by decide
theorem test_rdbound_pct_min : resultErr (exec .rdboundPctMin (bst .pctMin 0x00000000 3)) = some (0, 0) := by decide
theorem test_rdbound_pct_max : resultErr (exec .rdboundPctMax (bst .pctMax 0x42C80000 2)) = some (0x2710, 0) := by decide
theorem test_rdbound_si_min : resultErr (exec .rdboundSiMin (bst .siMin 0xFF800000 1)) = some (0x80000000, 0) := by decide
theorem test_rdbound_si_max : resultErr (exec .rdboundSiMax (bst .siMax 0x42C80000 1)) = some (0x3E8, 0) := by decide

/-! ### The pure functions, where the vectors press hardest (95_test_vectors.md 3.1, 4.1) -/

theorem test_float_to_fixed_ties :
    floatToFixed 0x3F000000 0 = 1 ∧ floatToFixed 0xBF000000 0 = -1 ∧ floatToFixed 0x3EC00000 0 = 0 ∧
    floatToFixed 0x00800000 47 = 1175494351 ∧ floatToFixed 0x00800000 48 = 2147483647 ∧
    floatToFixed 0x4A03126E 3 = 2147483500 ∧ floatToFixed 0xCF000000 0 = -2147483648 := by decide

theorem test_decode_value_arms :
    decodeValue .LE 0 3 0 [(0, 0xFF), (1, 0x80), (2, 0x7F)] 1 = .ok (-128) ∧
    decodeValue .LE 1 1 0 [(1, 0x80)] 0 = .ok (-32768) ∧
    decodeValue .BE 1 2 0 [(0, 0x01), (2, 0xFF), (3, 0xFF)] 0 = .ok 256 ∧
    decodeValue .BE 2 1 0 [(0, 0x78), (1, 0x56), (2, 0x34), (3, 0x12)] 0 = .ok 0x78563412 ∧
    decodeValue .LE 2 8 0 [(31, 0x80)] 7 = .ok (-2147483648) := ⟨rfl, rfl, rfl, rfl, rfl⟩

/-! ### The host port (95_test_vectors.md section 4.4) -/

theorem test_write_lanes :
    bufOf (step (pend State.reset (.write 0x40 .w32 0x44332211))) =
      some [(0, 0x11), (1, 0x22), (2, 0x33), (3, 0x44)] := by decide

theorem test_read_lanes :
    answer (step (pend (st 0 0 0 0 0 [(1, 0x22), (2, 0x33), (3, 0x44)]) (.read 0x42 .w16))) =
      some (.readData 0x4433) := by decide

theorem test_write_misaligned : answer (step (pend State.reset (.write 0x5E .w32 1))) = some .writeError := by decide

theorem test_read_reserved : answer (step (pend State.reset (.read 0xFC .w32))) = some (.readError 0) := by decide

theorem test_count_clamped :
    answer (step (pend (State.reset.setCount 0xFFFFFFFF) (.read 0x18 .w32))) = some (.readData 8) := by decide

theorem test_illegal_command :
    resultErr (step (pend (State.reset.setResult 0x69) (.write 0 .w32 0x64))) = some (0x69, 3) := by decide

/-- Writing 0x00 takes a byte out of the canonical list again. -/
theorem test_write_zero_byte :
    bufOf (step (pend (st 0 0 0 0 0 [(3, 7)]) (.write 0x43 .w8 0xABCD00))) = some [] := by decide

/-- The first step after reset runs the word that stands at the port (30_encoding.md R84). -/
theorem test_withFetchWord_runs :
    resultErr (step (State.reset.withFetchWord 32 0x03)) = some (0, 1) ∧
    resultErr (step (State.reset.withFetchWord 32 0x54)) = some (0, 0) ∧
    decodeTableWord 32 0x54 = some .rdboundSiMax := by decide

/-! ### Witnesses: the hypotheses of each statement are met -/

/-- A port with one CMD write. -/
def cmdAt (s : State) (w : Word) : State := s.setPort [.write s.params.base .w32 w]

theorem witness_DecodeIsTheInverseOfEncode :
    Instr.decode.wellFormed = true ∧ decodeWord 0x54 = some .rdboundSiMax := by decide

theorem witness_StepRunsTheDecodedCommand :
    (cmdAt State.reset 1).port = .write (cmdAt State.reset 1).params.base .w32 1 :: [] ∧
      decodeWord 1 = some .f2x := by decide

theorem witness_IllegalWordSetsCmdAndErrOnly :
    (0x64 : Word) ∉ legalWords ∧
      (cmdAt State.reset 0x64).port = .write (cmdAt State.reset 0x64).params.base .w32 0x64 :: [] := by decide

theorem witness_NopClearsErrOnly : (0x10 : Word).extractLsb' 0 4 = 0 ∧ (0x10 : Word) ≠ 0 := by decide

theorem witness_F2xOfZeroOrDenormalIsZero : (st 0x807FFFFF 2 0 0 0 []).opa.extractLsb' 23 8 = 0 := by decide

theorem witness_F2xOfInfinityOrNanSaturatesBySign :
    (st 0xFFC00001 1 0 0 0 []).opa.extractLsb' 23 8 = 255 ∧
      (st 0x7F800000 1 0 0 0 []).opa.extractLsb' 23 8 = 255 := by decide

/-- 2.5 with no decimals, k = 22, magnitude 3; and the ends of the range, k = 1 and k = 149. -/
theorem witness_F2xRoundsHalfAwayFromZero :
    let s := st 0x40200000 0 0 0 0 []
    let hi := st 0x4A800001 0 0 0 0 []
    let lo := st 0x00800000 0 0 0 0 []
    (1 ≤ (s.opa.extractLsb' 23 8).toNat ∧ (s.opa.extractLsb' 23 8).toNat + 22 = 150 ∧ 1 ≤ 22 ∧
      2 ^ 22 * 3 ≤ (2 ^ 23 + (s.opa.extractLsb' 0 23).toNat) * 10 ^ s.opb.toNat + 2 ^ (22 - 1) ∧
      (2 ^ 23 + (s.opa.extractLsb' 0 23).toNat) * 10 ^ s.opb.toNat + 2 ^ (22 - 1) < 2 ^ 22 * (3 + 1)) ∧
    (1 ≤ (hi.opa.extractLsb' 23 8).toNat ∧ (hi.opa.extractLsb' 23 8).toNat + 1 = 150 ∧
      2 ^ 1 * 4194305 ≤ (2 ^ 23 + (hi.opa.extractLsb' 0 23).toNat) * 10 ^ hi.opb.toNat + 2 ^ (1 - 1) ∧
      (2 ^ 23 + (hi.opa.extractLsb' 0 23).toNat) * 10 ^ hi.opb.toNat + 2 ^ (1 - 1) < 2 ^ 1 * (4194305 + 1)) ∧
    (1 ≤ (lo.opa.extractLsb' 23 8).toNat ∧ (lo.opa.extractLsb' 23 8).toNat + 149 = 150 ∧
      2 ^ 149 * 0 ≤ (2 ^ 23 + (lo.opa.extractLsb' 0 23).toNat) * 10 ^ lo.opb.toNat + 2 ^ (149 - 1) ∧
      (2 ^ 23 + (lo.opa.extractLsb' 0 23).toNat) * 10 ^ lo.opb.toNat + 2 ^ (149 - 1) < 2 ^ 149 * (0 + 1)) := by decide

theorem witness_F2xShiftsLargeExponentsLeft :
    ((st 0x4B000001 0 0 0 0 []).opa.extractLsb' 23 8).toNat = 150 + 0 ∧
      ((st 0x7F7FFFFF 0 0 0 0 []).opa.extractLsb' 23 8).toNat = 150 + 104 ∧ 104 ≤ 104 := by decide

/-- One float for each clause, the negative ones at the edge of the range. -/
theorem witness_FiniteResultsSaturateToI32 :
    ((0x4EFFFFFF : Word).getLsbD 31 = false ∧ magnitude 0x4EFFFFFF 0 ≤ 2147483647) ∧
    ((0x4F000000 : Word).getLsbD 31 = false ∧ 2147483647 < magnitude 0x4F000000 0) ∧
    ((0xCF000000 : Word).getLsbD 31 = true ∧ magnitude 0xCF000000 0 ≤ 2147483648) ∧
    ((0xCF000001 : Word).getLsbD 31 = true ∧ 2147483648 < magnitude 0xCF000001 0) ∧
    1 ≤ ((0x00800000 : Word).extractLsb' 23 8).toNat ∧ ((0x7F7FFFFF : Word).extractLsb' 23 8).toNat ≤ 254 := by decide

theorem witness_F2xIsMonotonic :
    let s := st 0xBF800000 2 0 0 0 []
    let t := st 0x00000001 2 0 0 0 []
    s.opb = t.opb ∧ floatExp s.opa ≠ 255 ∧ floatExp t.opa ≠ 255 ∧
      floatScaledValue s.opa ≤ floatScaledValue t.opa := by decide

theorem witness_F2xFiniteDatapathIsExact :
    1 ≤ floatExp 0x00800000 ∧ floatExp 0x00800000 ≤ 254 ∧ floatExp 0x7F7FFFFF ≤ 254 := by decide

theorem witness_X2fOfZeroIsPlusZero : (st 0 5 0 0 0 []).opa = 0 := by decide

/-- 1 with 7 decimals, and -1 with 8 (95_test_vectors.md 3.2). -/
theorem witness_X2fZeroQuotientIsPlusZero :
    (st 1 7 0 0 0 []).opa.toInt.natAbs * 2 ^ 23 < 10 ^ (st 1 7 0 0 0 []).opb.toNat ∧
      (st 0xFFFFFFFF 8 0 0 0 []).opa.toInt.natAbs * 2 ^ 23 < 10 ^ (st 0xFFFFFFFF 8 0 0 0 []).opb.toNat := by decide

theorem witness_X2fQuotientIsExactFloor : (0x80000000 : Word).toInt.natAbs = 2 ^ 31 := by decide

/-- 105 with 1 decimal (three halvings), 7 with 1 (one doubling), -2^31 with 16 (23 doublings), as
95_test_vectors.md 3.2 gives them. -/
theorem witness_X2fPacksSignExponentMantissa :
    let s := st 105 1 0 0 0 []
    let t := st 7 1 0 0 0 []
    let u := st 0x80000000 16 0 0 0 []
    (2 ^ 23 ≤ 11010048 ∧ 11010048 < 2 ^ 24 ∧
      11010048 = s.opa.toInt.natAbs * 2 ^ 23 / 10 ^ s.opb.toNat / 2 ^ 3 ∧ 130 = 127 + 3) ∧
    (2 ^ 23 ≤ 11744050 ∧ 11744050 < 2 ^ 24 ∧
      11744050 = t.opa.toInt.natAbs * 2 ^ 23 / 10 ^ t.opb.toNat * 2 ^ 1 ∧ 126 + 1 = 127) ∧
    (2 ^ 23 < 2 ^ 24 ∧
      2 ^ 23 = u.opa.toInt.natAbs * 2 ^ 23 / 10 ^ u.opb.toNat * 2 ^ 23 ∧ 104 + 23 = 127) := by decide

/-- The two ends of the range, with the exponents 40_codec.md R124 names. -/
theorem witness_NormalisationEndsInRange :
    normalise 1 = (2 ^ 23, 104) ∧ normalise (2 ^ 54) = (2 ^ 23, 158) := by decide

theorem witness_X2fNeverExceedsTheExactValue :
    resultErr (exec .x2f (st 7 1 0 0 0 [])) = some (0x3F333332, 0) := by decide

theorem witness_X2fFiniteDatapathIsExact : 17 ≤ (17 : Nat) ∧ fixedToFloat (-2147483648) 16 ≠ 0 := by decide

/-- A step that answers next, for the clause about the parameters. -/
theorem witness_AssembleFollowsTheByteOrder :
    ∃ t, step (cmdAt State.reset 0) = .next t := ⟨_, rfl⟩

theorem witness_DecodeInt8SignExtendsTheByte :
    (st 7 0 0 8 0 [(7, 0x80)]).fmt = 0 ∧
      (st 7 0 0 8 0 [(7, 0x80)]).opa.toNat < (st 7 0 0 8 0 [(7, 0x80)]).count.val := by decide

theorem witness_DecodeInt16AssemblesTwoBytes :
    (st 7 0 1 8 0 []).fmt = 1 ∧ (st 7 0 1 8 0 []).opa.toNat < (st 7 0 1 8 0 []).count.val ∧
      (st 7 0 1 8 0 []).params.byteOrder = .LE ∧ (bigEndian (st 7 0 1 8 0 [])).params.byteOrder = .BE := by decide

theorem witness_DecodeInt32AssemblesFourBytes :
    (st 7 0 2 8 0 []).fmt = 2 ∧ (st 7 0 2 8 0 []).opa.toNat < (st 7 0 2 8 0 []).count.val ∧
      (st 7 0 2 8 0 []).params.byteOrder = .LE ∧ (bigEndian (st 7 0 2 8 0 [])).params.byteOrder = .BE := by decide

theorem witness_DecodeFloat32ConvertsFourBytes :
    (st 0 0 3 1 1 []).fmt = 3 ∧ (st 0 0 3 1 1 []).opa.toNat < (st 0 0 3 1 1 []).count.val ∧
      (st 0 0 3 1 1 []).params.byteOrder = .LE ∧ (bigEndian (st 0 0 3 1 1 [])).params.byteOrder = .BE := by decide

/-- COUNT 0 with index 0, and the largest count with the largest index. -/
theorem witness_DecodeIndexAtOrPastCountFails :
    (st 0 0 7 0 0 []).count.val ≤ (st 0 0 7 0 0 []).opa.toNat ∧
      (st 0xFFFFFFFF 0 0 8 0 []).count.val ≤ (st 0xFFFFFFFF 0 0 8 0 []).opa.toNat := by decide

theorem witness_DecodeUnrecognisedFormatFails :
    ((st 3 0 4 8 0 []).opa.toNat < (st 3 0 4 8 0 []).count.val ∧ 4 ≤ (st 3 0 4 8 0 []).fmt.toNat) ∧
    (4 ≤ (7 : Word).toNat ∧ (7 : Word).toNat ≤ 7 ∧
      (pend State.reset (.write 0x14 .w32 7)).port = .write (State.reset.params.base + 0x14) .w32 7 :: []) := by decide

/-- A buffer that differs past the one byte an Int8 DECODE of index 0 reads, which completes. -/
theorem witness_DecodeReadsOnlyTheSelectedValue :
    let s := st 0 0 0 1 0 [(0, 5)]
    (∀ f, formatOf s.fmt = some f → ∀ a, s.opa.toNat * formatWidth f ≤ a →
      a < s.opa.toNat * formatWidth f + formatWidth f → readByte [(0, 5), (1, 9)] a = readByte s.buf a) ∧
      (∃ t, exec .decode s = .next t) ∧ s.opa.toNat < s.count.val := by
  refine ⟨fun f hf a _ ha => ?_, ⟨_, rfl⟩, by decide⟩
  cases hf
  have h0 : a = 0 := Nat.lt_one_iff.mp ha
  subst h0
  rfl

theorem witness_LegalCommandsSucceed :
    (st 7 0 3 8 0 []).opa.toNat < (st 7 0 3 8 0 []).count.val ∧ (st 7 0 3 8 0 []).fmt.toNat ≤ 3 := by decide

/-- One state for each error code. -/
theorem witness_ErrAfterACommandFollowsThePriority :
    resultErr (step (cmdAt (st 2 0 5 2 0 []) 0x64)) = some (0, 3) ∧
    resultErr (step (cmdAt (st 2 0 5 2 0 []) 3)) = some (0, 1) ∧
    resultErr (step (cmdAt (st 1 0 5 2 0 []) 3)) = some (0, 2) ∧
    resultErr (step (cmdAt (st 1 0 3 2 0 []) 3)) = some (0, 0) := by decide

theorem witness_ErrorsLeaveResultUnchanged :
    (cmdAt State.reset 3).port = .write (cmdAt State.reset 3).params.base .w32 3 :: [] ∧
      resultErr (step (cmdAt (State.reset.setResult 9) 3)) = some (9, 1) := by decide

theorem witness_ControlRegisterAccess :
    (pend State.reset (.write 0x18 .w32 9)).port = .write (State.reset.params.base + 0x18) .w32 9 :: [] ∧
      (pend State.reset (.read 0x34 .w32)).port = .read (State.reset.params.base + 0x34) .w32 :: [] := by decide

theorem witness_ReadOnlyRegistersRejectWrites :
    (pend State.reset (.write 0x10 .w8 0)).port = .write (State.reset.params.base + 0x10) .w8 0 :: [] ∧
      (pend State.reset (.read 0x0C .w32)).port = .read (State.reset.params.base + 0x0C) .w32 :: [] := by decide

/-- A narrow access to a register, a reserved offset, an access across 0x60, and the window's last byte. -/
theorem witness_UnadmittedAccessIsABusError :
    ¬ Admitted 0x14 (widthBytes .w8) ∧ ¬ Admitted 0x38 (widthBytes .w32) ∧
      ¬ Admitted 0x5E (widthBytes .w32) ∧ ¬ Admitted 0xFF (widthBytes .w8) ∧ 0xFF < 256 ∧
      (pend State.reset (.write 0xFF .w8 0)).port = .write (State.reset.params.base + 0xFF) .w8 0 :: [] ∧
      (pend State.reset (.read 0xFF .w8)).port = .read (State.reset.params.base + 0xFF) .w8 :: [] := by decide

theorem witness_BufferAccessUsesLittleEndianLanes :
    let s := pend State.reset (.write 0x5E .w16 0xBEEF)
    let t := pend State.reset (.read 0x40 .w32)
    (s.Inv ∧ 0x5E % widthBytes .w16 = 0 ∧ 0x40 ≤ 0x5E ∧ 0x5E + widthBytes .w16 ≤ 0x60 ∧
      s.port = .write (s.params.base + 0x5E) .w16 0xBEEF :: []) ∧
    (t.Inv ∧ 0x40 % widthBytes .w32 = 0 ∧ 0x40 + widthBytes .w32 ≤ 0x60 ∧
      t.port = .read (t.params.base + 0x40) .w32 :: []) := by decide

theorem witness_BufferReadsBackWhatWasWritten :
    let s := State.reset.setPort [.write 0x5F .w8 0x1FF, .read 0x5F .w8]
    s.Inv ∧ 0x5F % widthBytes .w8 = 0 ∧ 0x40 ≤ 0x5F ∧ 0x5F + widthBytes .w8 ≤ 0x60 ∧
      s.port = .write (s.params.base + 0x5F) .w8 0x1FF :: .read (s.params.base + 0x5F) .w8 :: [] := by decide

/-- The first and the last byte of the window, one read pending and the same read pending twice; and an
answer that is not 0, so that the two answers can be told apart from a read of nothing. -/
theorem witness_ReadsHaveNoSideEffects :
    let s := pend State.reset (.read 0xFF .w32)
    let t := (st 0 0 0 0 0 [(31, 7)]).setPort [.read 0x5F .w8, .read 0x5F .w8]
    (InWindow s.params 0 ∧ InWindow s.params 0xFF ∧ s.port = .read 0xFF .w32 :: []) ∧
    (InWindow t.params 0x5F ∧ t.port = .read 0x5F .w8 :: .read 0x5F .w8 :: [] ∧
      answer (step t) = some (.readData 7)) := by decide

theorem witness_OnlyCommandsAndResetChangeResultOrErr :
    ∃ t, step (cmdAt State.reset 0x05) = .next t ∧ t.err ≠ (cmdAt State.reset 0x05).err :=
  ⟨_, rfl, by decide⟩

theorem witness_InputsChangeOnlyByTheirOwnWrites :
    let s := pend State.reset (.write 0x5F .w8 7)
    let r := pend State.reset (.write 0x34 .w32 7)
    (s.Inv ∧ s.port.head? ≠ some .reset ∧ ∃ t, step s = .next t ∧ readByte t.buf 31 ≠ readByte s.buf 31) ∧
    (r.Inv ∧ r.port.head? ≠ some .reset ∧ ∃ t, step r = .next t ∧ t.bound.siMax ≠ r.bound.siMax) :=
  ⟨⟨by decide, by decide, _, rfl, by decide⟩, ⟨by decide, by decide, _, rfl, by decide⟩⟩

theorem witness_AccessOutsideTheWindowFaults :
    ¬ InWindow State.reset.params 0x100 ∧
      (pend State.reset (.read 0x100 .w32)).port = .read 0x100 .w32 :: [] := by decide

theorem witness_ResetEventSetsEveryRegister :
    (pend (st 1 2 3 4 5 [(0, 6)]) .reset).port = .reset :: [] := by decide

theorem witness_EveryStepKeepsTheInvariant :
    (cmdAt (st 0 0 0 0 0 [(31, 1)]) 3).Inv ∧ ∃ t, step (cmdAt (st 0 0 0 0 0 [(31, 1)]) 3) = .next t :=
  ⟨by decide, _, rfl⟩

theorem witness_RunsInsideTheWindowNeverStop :
    ∀ ev ∈ (State.reset.setPort [.write 0xFF .w32 1, .reset]).port,
      Reaches (State.reset.setPort [.write 0xFF .w32 1, .reset]).params ev := by
  intro ev h
  simp only [State.setPort_port, List.mem_cons, List.not_mem_nil, or_false] at h
  rcases h with rfl | rfl
  · exact ⟨by decide, by decide⟩
  · trivial

theorem witness_EarlierAnswersAreNoInput : (cmdAt State.reset 0).port ≠ [] := by decide

theorem witness_PseudoInstructionsRunAsTheyExpand :
    (State.reset.setPort (cvtF2x State.reset.params 0x4048F5C3 2)).port =
      cvtF2x State.reset.params 0x4048F5C3 2 ++ [] := by decide

end Sys2Proof.Tests
end

/-! ### What a command writes (10_state.md R33, R35) -/

namespace Sys2Proof.Machine

/-- What the command `i` writes at the inputs of `s`: RESULT gets `w`, where it is written at all, and ERR
gets `e`; both are the same whatever RESULT and ERR held before. Only a command that succeeds writes
RESULT. -/
def Writes (i : Instr) (s : State) (w : Option Word) (e : BitVec 4) : Prop :=
  (e ≠ 0 → w = none) ∧
    ∀ r x, exec i ((s.setResult r).setErr x) = .next ((s.setResult (w.getD r)).setErr e)

/-- A command that always ends by `finish`, with a value read from the inputs only. -/
theorem writes_of_finish {i : Instr} (f : State → Word) (hexec : ∀ s, exec i s = finish (f s) s)
    (hinputs : ∀ s r x, f ((s.setResult r).setErr x) = f s) (s : State) : Writes i s (some (f s)) 0 := by
  refine ⟨fun h => absurd rfl h, fun r x => ?_⟩
  rw [hexec, hinputs]
  rfl

/-- DECODE takes its outcome from the inputs only: `decodeValue` is given neither RESULT nor ERR. -/
theorem decode_writes (s : State) : ∃ w e, Writes .decode s w e := by
  rcases execDecode_cases s with ⟨err, hval, -⟩ | ⟨z, hval, -⟩
  · have hraise (r x) : exec .decode ((s.setResult r).setErr x) = raise err ((s.setResult r).setErr x) := by
      simp [exec, execDecode, modeDecimals, opIndex, hval]
    exact ⟨none, errCode err, fun _ => rfl, hraise⟩
  · have hfinish (r x) :
        exec .decode ((s.setResult r).setErr x) = finish (enc32 z) ((s.setResult r).setErr x) := by
      simp [exec, execDecode, modeDecimals, opIndex, hval]
    exact ⟨some (enc32 z), 0, fun h => absurd rfl h, hfinish⟩

/-- Every command takes what it writes from the inputs only. -/
theorem exec_writes (i : Instr) (s : State) : ∃ w e, Writes i s w e := by
  cases i with
  | nop => exact ⟨none, 0, fun _ => rfl, fun _ _ => rfl⟩
  | decode => exact decode_writes s
  | _ => exact ⟨_, _, writes_of_finish _ (fun _ => rfl) (fun _ _ _ => rfl) s⟩

/-- Settles O35: what a command writes depends on the inputs only, and it leaves these as they were. -/
theorem commandsWriteOnlyResultAndErr : Obligations.CommandsWriteOnlyResultAndErr := by
  intro i s
  obtain ⟨w, e, hresult, hexec⟩ := exec_writes i s
  refine ⟨(s.setResult (w.getD s.result)).setErr e, hexec s.result s.err, ?_, ?_, ?_⟩
  · simp [SameInputs]
  · intro he
    rw [hresult he]
    rfl
  · rw [hexec]
    cases w <;> rfl

end Sys2Proof.Machine

/-! ### Assembling bytes into a word (20_memory.md R60) -/

namespace Sys2Proof.Machine

/-- The bytes of the second list weigh 8 bits more for each byte of the first. -/
theorem leValue_append (xs ys : List Byte) :
    leValue (xs ++ ys) = leValue xs + 2 ^ (8 * xs.length) * leValue ys := by
  induction xs with
  | nil => simp [leValue]
  | cons x xs ih =>
    simp only [List.cons_append, leValue, ih, List.length_cons]
    ring

/-- Under LE the bytes that come first are the low ones. -/
theorem assemble_LE_append (xs ys : List Byte) :
    assemble .LE (xs ++ ys) = assemble .LE xs + 2 ^ (8 * xs.length) * assemble .LE ys :=
  leValue_append xs ys

/-- Under BE the bytes that come first are the high ones. -/
theorem assemble_BE_append (xs ys : List Byte) :
    assemble .BE (xs ++ ys) = 2 ^ (8 * ys.length) * assemble .BE xs + assemble .BE ys := by
  simp only [assemble, List.reverse_append, leValue_append, List.length_reverse]
  exact Nat.add_comm _ _

/-- The first byte of a list fills the low 8 bits of the word, the other bytes the bits above them. -/
theorem ofNat_leValue_cons (w : Nat) (b : Byte) (bs : List Byte) :
    BitVec.ofNat (w + 8) (leValue (b :: bs)) = BitVec.ofNat w (leValue bs) ++ b := by
  have hb : b.toNat < 2 ^ 8 := b.isLt
  have hlow : leValue (b :: bs) % 2 ^ 8 = b.toNat := by rw [leValue]; omega
  have hhigh : leValue (b :: bs) / 2 ^ 8 = leValue bs := by rw [leValue]; omega
  apply BitVec.eq_of_toNat_eq
  rw [BitVec.toNat_append, ← Nat.shiftLeft_add_eq_or_of_lt hb, Nat.shiftLeft_eq, BitVec.toNat_ofNat,
    BitVec.toNat_ofNat, Nat.add_comm w 8, Nat.pow_add, Nat.mod_mul, hlow, hhigh, Nat.mul_comm, Nat.add_comm]

/-- Two bytes, least significant first, as a halfword. -/
theorem ofNat_leValue_two (b0 b1 : Byte) : BitVec.ofNat 16 (leValue [b0, b1]) = b1 ++ b0 := by
  rw [ofNat_leValue_cons 8 b0 [b1]]
  simp [leValue]

/-- Four bytes, least significant first, as a word. -/
theorem ofNat_leValue_four (b0 b1 b2 b3 : Byte) :
    BitVec.ofNat 32 (leValue [b0, b1, b2, b3]) = b3 ++ b2 ++ b1 ++ b0 := by
  rw [ofNat_leValue_cons 24 b0 [b1, b2, b3], ofNat_leValue_cons 16 b1 [b2, b3], ofNat_leValue_two]

/-- The parameters are fixed for the block: no write of the window reaches them, and a reset keeps them. -/
theorem step_params {s t : State} (h : step s = .next t) : t.params = s.params := by
  rcases step_cases h with ⟨-, rfl⟩ | ⟨_, -, rfl⟩ | ⟨_, _, _, _, -, -, heffect⟩ | ⟨_, _, _, -, -, rfl⟩
  · rfl
  · exact State.resetEvent_params _
  · cases heffect <;> rfl
  · exact State.respond_params _ _

/-- Settles O26: BE assembles the reversed list, so both orders rest on the value least significant byte
first. -/
theorem assembleFollowsTheByteOrder : Obligations.AssembleFollowsTheByteOrder := by
  refine ⟨fun b0 b1 => ⟨ofNat_leValue_two b0 b1, ofNat_leValue_two b1 b0⟩, fun b0 b1 b2 b3 => ?_, rfl,
    fun s t => step_params⟩
  exact ⟨ofNat_leValue_four b0 b1 b2 b3, ofNat_leValue_four b3 b2 b1 b0,
    assemble_LE_append [b0, b1] [b2, b3], assemble_BE_append [b0, b1] [b2, b3]⟩

end Sys2Proof.Machine

/-! ### Decoding a command word (30_encoding.md R80 to R84) -/

namespace Sys2Proof.Machine

/-- A word is its three fields side by side (30_encoding.md R80). -/
theorem eq_append_fieldsOf (w : Word) : w = (fieldsOf w).rsv ++ (fieldsOf w).sel ++ (fieldsOf w).op := by
  have hhigh : (fieldsOf w).rsv ++ (fieldsOf w).sel = w.extractLsb' 4 28 :=
    BitVec.extractLsb'_append_extractLsb'_eq_extractLsb' rfl
  rw [hhigh]
  exact (BitVec.extractLsb'_append_extractLsb' (w := 28) (len := 4) (x := w)).symm

/-- A command without a selector is read from SEL = 0 only (30_encoding.md R80). -/
theorem decodePlain_eq_some {sel : BitVec 3} {i j : Instr} :
    decodePlain sel i = some j ↔ sel = 0 ∧ i = j := by
  simp [decodePlain]

/-- A bound selector is read as an RDBOUND whose own SEL it is (30_encoding.md R82). -/
theorem op_sel_of_decodeSel {sel : BitVec 3} {i : Instr} (h : decodeSel sel = some i) :
    4#4 = i.op ∧ sel = i.sel := by
  unfold decodeSel at h
  split at h <;> cases h <;> exact ⟨rfl, BitVec.eq_of_toNat_eq ‹_›⟩

/-- OP and SEL are read as an instruction whose own OP and SEL they are (30_encoding.md R81). -/
theorem op_sel_of_decodeOp {op : BitVec 4} {sel : BitVec 3} {i : Instr} (h : decodeOp op sel = some i) :
    op = i.op ∧ sel = i.sel := by
  unfold decodeOp at h
  split at h
  case h_6 => cases h
  case h_5 hop =>
    obtain ⟨hfour, hsel⟩ := op_sel_of_decodeSel h
    exact ⟨(BitVec.eq_of_toNat_eq hop).trans hfour, hsel⟩
  all_goals
    obtain ⟨hsel, rfl⟩ := decodePlain_eq_some.mp h
    exact ⟨BitVec.eq_of_toNat_eq ‹_›, hsel⟩

/-- The only word that decodes to an instruction is that instruction's own word. -/
theorem eq_encode_of_decodeWord {w : Word} {i : Instr} (h : decodeWord w = some i) : w = encode i := by
  obtain ⟨hrsv, hop⟩ : (fieldsOf w).rsv = 0 ∧ decodeOp (fieldsOf w).op (fieldsOf w).sel = some i := by
    simpa [decodeWord] using h
  obtain ⟨hop, hsel⟩ := op_sel_of_decodeOp hop
  calc w = (fieldsOf w).rsv ++ (fieldsOf w).sel ++ (fieldsOf w).op := eq_append_fieldsOf w
    _ = encode i := by rw [hrsv, hop, hsel]; rfl

/-- The word of an instruction decodes to it. -/
theorem decodeWord_encode (i : Instr) : decodeWord (encode i) = some i := by
  cases i <;> rfl

/-- The table of 30_encoding.md R83, row by row. -/
theorem legalWords_eq_map_encode :
    legalWords = [.nop, .f2x, .x2f, .decode, .rdboundRawMin, .rdboundRawMax, .rdboundPctMin, .rdboundPctMax,
      .rdboundSiMin, .rdboundSiMax].map encode := rfl

/-- The table of 30_encoding.md R83 leaves out no instruction. -/
theorem encode_mem_legalWords (i : Instr) : encode i ∈ legalWords := by
  cases i <;> decide

/-- The words of the table of 30_encoding.md R83 are those that decode. -/
theorem mem_legalWords_iff {w : Word} : w ∈ legalWords ↔ ∃ i, decodeWord w = some i := by
  constructor
  · intro hw
    rw [legalWords_eq_map_encode] at hw
    obtain ⟨i, -, rfl⟩ := List.mem_map.mp hw
    exact ⟨i, decodeWord_encode i⟩
  · rintro ⟨i, hi⟩
    rw [eq_encode_of_decodeWord hi]
    exact encode_mem_legalWords i

/-- Settles O2: each word of the table is the word of its instruction, and a word that decodes is the word
of the instruction it decodes to. -/
theorem legalWordsAreExactlyTen : Obligations.LegalWordsAreExactlyTen := by
  refine ⟨decodeWord_encode .nop, decodeWord_encode .f2x, decodeWord_encode .x2f, decodeWord_encode .decode,
    decodeWord_encode .rdboundRawMin, decodeWord_encode .rdboundRawMax, decodeWord_encode .rdboundPctMin,
    decodeWord_encode .rdboundPctMax, decodeWord_encode .rdboundSiMin, decodeWord_encode .rdboundSiMax,
    fun w => ?_⟩
  rw [mem_legalWords_iff, Option.eq_none_iff_forall_ne_some, not_exists]

end Sys2Proof.Machine

/-! ### The magnitude of a normal float (40_codec.md R104 to R106, R109) -/

namespace Sys2Proof.Machine

theorem scaledMantissa_ge (b : Word) (d : Nat) : 2 ^ 23 * 10 ^ d ≤ scaledMantissa b d :=
  Nat.mul_le_mul_right _ (Nat.le_add_right _ _)

theorem scaledMantissa_lt (b : Word) (d : Nat) : scaledMantissa b d < 2 ^ 24 * 10 ^ d := by
  have hfrac := floatFrac_lt b
  exact Nat.mul_lt_mul_of_pos_right (by omega) (Nat.pow_pos (by decide))

/-- Settles O11: the mantissa field is below 2^23. -/
theorem scaledMantissaIsExactAndBounded : Obligations.ScaledMantissaIsExactAndBounded :=
  fun b d => ⟨rfl, scaledMantissa_ge b d, scaledMantissa_lt b d⟩

theorem div_le_roundShift (m k : Nat) : m / 2 ^ k ≤ roundShift m k :=
  Nat.div_le_div_right (Nat.le_add_right _ _)

theorem roundShift_le (m k : Nat) : roundShift m k ≤ m + 2 ^ (k - 1) := Nat.div_le_self _ _

/-- The two inequalities fix the rounded magnitude. -/
theorem roundShift_eq_of_bounds {m k mag : Nat} (hle : 2 ^ k * mag ≤ m + 2 ^ (k - 1))
    (hlt : m + 2 ^ (k - 1) < 2 ^ k * (mag + 1)) : roundShift m k = mag :=
  Nat.div_eq_of_lt_le (by rwa [Nat.mul_comm]) (by rwa [Nat.mul_comm])

theorem magnitude_of_exp_add {b : Word} {k : Nat} (d : Nat) (hexp : floatExp b + k = 150) (hk : 1 ≤ k) :
    magnitude b d = roundShift (scaledMantissa b d) k := by
  rw [magnitude, if_pos (by omega), show 150 - floatExp b = k by omega]

theorem magnitude_of_exp_eq {b : Word} {k : Nat} (d : Nat) (hexp : floatExp b = 150 + k) :
    magnitude b d = scaledMantissa b d * 2 ^ k := by
  rw [magnitude, if_neg (by omega), show floatExp b - 150 = k by omega]

/-- A normal exponent is below 150 by 1 to 149, where the magnitude is rounded, or above it by 0 to 104,
where it is exact (40_codec.md R105, R106). -/
theorem exp_cases {b : Word} (h1 : 1 ≤ floatExp b) (h2 : floatExp b ≤ 254) :
    (∃ k, floatExp b + k = 150 ∧ 1 ≤ k ∧ k ≤ 149) ∨ (∃ k, floatExp b = 150 + k ∧ k ≤ 104) := by
  by_cases h : floatExp b < 150
  · exact .inl ⟨150 - floatExp b, by omega, by omega, by omega⟩
  · exact .inr ⟨floatExp b - 150, by omega, by omega⟩

/-- From 48 decimals on no normal input is in the i32 range, not even with the deepest shift, by 149. -/
theorem magnitude_gt {b : Word} {d : Nat} (h1 : 1 ≤ floatExp b) (h2 : floatExp b ≤ 254) (hd : 48 ≤ d) :
    2 ^ 31 < magnitude b d := by
  have hm : 2 ^ 23 * 10 ^ 48 ≤ scaledMantissa b d :=
    (Nat.mul_le_mul_left _ (Nat.pow_le_pow_right (by decide) hd)).trans (scaledMantissa_ge b d)
  rcases exp_cases h1 h2 with ⟨k, hexp, hk1, hk⟩ | ⟨k, hexp, -⟩
  · rw [magnitude_of_exp_add d hexp hk1]
    calc 2 ^ 31 < 2 ^ 23 * 10 ^ 48 / 2 ^ 149 := by norm_num
      _ ≤ scaledMantissa b d / 2 ^ 149 := Nat.div_le_div_right hm
      _ ≤ scaledMantissa b d / 2 ^ k :=
        Nat.div_le_div_left (Nat.pow_le_pow_right (by decide) hk) (Nat.pow_pos (by decide))
      _ ≤ roundShift (scaledMantissa b d) k := div_le_roundShift _ _
  · rw [magnitude_of_exp_eq d hexp]
    calc 2 ^ 31 < 2 ^ 23 * 10 ^ 48 := by norm_num
      _ ≤ scaledMantissa b d := hm
      _ ≤ scaledMantissa b d * 2 ^ k := Nat.le_mul_of_pos_right _ (Nat.pow_pos (by decide))

theorem scaledMantissa_lt_two_pow (b : Word) {d : Nat} (hd : d ≤ 48) : scaledMantissa b d < 2 ^ 184 :=
  calc scaledMantissa b d < 2 ^ 24 * 10 ^ d := scaledMantissa_lt b d
    _ ≤ 2 ^ 24 * 10 ^ 48 := Nat.mul_le_mul_left _ (Nat.pow_le_pow_right (by decide) hd)
    _ < 2 ^ 184 := by norm_num

theorem magnitude_lt_two_pow {b : Word} {d : Nat} (h1 : 1 ≤ floatExp b) (h2 : floatExp b ≤ 254)
    (hd : d ≤ 48) : magnitude b d < 2 ^ 288 := by
  have hm := scaledMantissa_lt_two_pow b hd
  rcases exp_cases h1 h2 with ⟨k, hexp, hk1, hk⟩ | ⟨k, hexp, hk⟩
  · rw [magnitude_of_exp_add d hexp hk1]
    calc roundShift (scaledMantissa b d) k ≤ scaledMantissa b d + 2 ^ (k - 1) := roundShift_le _ _
      _ < 2 ^ 184 + 2 ^ 148 :=
        Nat.add_lt_add_of_lt_of_le hm (Nat.pow_le_pow_right (by decide) (by omega))
      _ < 2 ^ 185 := by norm_num
      _ ≤ 2 ^ 288 := pow_le_pow_right₀ (by decide) (by decide)
  · rw [magnitude_of_exp_eq d hexp]
    calc scaledMantissa b d * 2 ^ k < 2 ^ 184 * 2 ^ 104 :=
          Nat.mul_lt_mul_of_lt_of_le hm (Nat.pow_le_pow_right (by decide) hk) (Nat.pow_pos (by decide))
      _ = 2 ^ 288 := by rw [← pow_add]

end Sys2Proof.Machine

/-! ### `float_to_fixed` and F2X (40_codec.md R101 to R110) -/

namespace Sys2Proof.Machine

/-- Exponent field 0 (40_codec.md R102). -/
theorem floatToFixed_of_exp_zero {b : Word} (d : Nat) (h : floatExp b = 0) : floatToFixed b d = 0 :=
  if_pos h

/-- Exponent field 255 (40_codec.md R103). -/
theorem floatToFixed_of_exp_max {b : Word} (d : Nat) (h : floatExp b = 255) :
    floatToFixed b d = if floatSign b then -2147483648 else 2147483647 := by
  rw [floatToFixed, if_neg (by omega), if_pos h]
  rfl

/-- Every other exponent field (40_codec.md R104 to R107). -/
theorem floatToFixed_of_normal {b : Word} (d : Nat) (h1 : 1 ≤ floatExp b) (h2 : floatExp b ≤ 254) :
    floatToFixed b d = saturate (floatSign b) (magnitude b d) := by
  rw [floatToFixed, if_neg (by omega), if_neg (by omega)]

theorem exp_zero_or_normal_or_max (b : Word) :
    floatExp b = 0 ∨ (1 ≤ floatExp b ∧ floatExp b ≤ 254) ∨ floatExp b = 255 := by
  have := floatExp_lt b
  omega

/-- The finite datapath loses nothing: past 48 decimals a normal input saturates either way
(40_codec.md R109). -/
theorem floatToFixed_min (b : Word) (d : Nat) : floatToFixed b (min d 48) = floatToFixed b d := by
  rcases Nat.le_total d 48 with hd | hd
  · rw [Nat.min_eq_left hd]
  · rw [Nat.min_eq_right hd]
    rcases exp_zero_or_normal_or_max b with h | ⟨h1, h2⟩ | h
    · rw [floatToFixed_of_exp_zero 48 h, floatToFixed_of_exp_zero d h]
    · rw [floatToFixed_of_normal 48 h1 h2, floatToFixed_of_normal d h1 h2]
      exact saturate_congr (magnitude_gt h1 h2 le_rfl).le (magnitude_gt h1 h2 hd).le
    · rw [floatToFixed_of_exp_max 48 h, floatToFixed_of_exp_max d h]

/-- Settles O16: 10^48 outweighs the deepest shift, and 10^48 is below 2^160. -/
theorem f2xFiniteDatapathIsExact : Obligations.F2xFiniteDatapathIsExact :=
  fun b d => ⟨floatToFixed_min b d, fun h1 h2 hd => magnitude_gt h1 h2 hd,
    fun h1 h2 hd => ⟨scaledMantissa_lt_two_pow b hd, magnitude_lt_two_pow h1 h2 hd⟩⟩

/-- F2X ends with the exact `float_to_fixed` of its operands. -/
theorem exec_f2x (s : State) :
    exec .f2x s = .next { s with result := enc32 (floatToFixed s.opa s.opb.toNat), err := 0 } := by
  have hfinish : exec .f2x s = finish (enc32 (floatToFixed s.opa (min s.opb.toNat 48))) s := rfl
  rw [hfinish, floatToFixed_min, finish_eq]

/-- F2X of a normal operand ends with its magnitude, signed and saturated. -/
theorem exec_f2x_of_normal {s : State} {mag : Nat} (h1 : 1 ≤ floatExp s.opa) (h2 : floatExp s.opa ≤ 254)
    (hmag : magnitude s.opa s.opb.toNat = mag) :
    exec .f2x s = .next { s with result := enc32 (saturate (floatSign s.opa) mag), err := 0 } := by
  rw [exec_f2x, floatToFixed_of_normal _ h1 h2, hmag]

/-- Settles O8: the finite datapath the command runs is exact. -/
theorem f2xWritesTheConvertedOperand : Obligations.F2xWritesTheConvertedOperand :=
  ⟨decodeWord_encode .f2x, exec_f2x⟩

/-- Settles O9: the decimal count is not read for exponent field 0. -/
theorem f2xOfZeroOrDenormalIsZero : Obligations.F2xOfZeroOrDenormalIsZero := by
  intro s h
  have hexp : floatExp s.opa = 0 := by rw [floatExp, h]; rfl
  rw [exec_f2x, floatToFixed_of_exp_zero _ hexp]
  rfl

/-- Settles O10: the mantissa and the decimal count are not read for exponent field 255. -/
theorem f2xOfInfinityOrNanSaturatesBySign : Obligations.F2xOfInfinityOrNanSaturatesBySign := by
  intro s h
  have hexp : floatExp s.opa = 255 := by rw [floatExp, h]; rfl
  rw [exec_f2x, floatToFixed_of_exp_max _ hexp, floatSign]
  split <;> rfl

/-- Settles O12: below exponent 150 the magnitude is the rounded shift, which the inequalities fix. -/
theorem f2xRoundsHalfAwayFromZero : Obligations.F2xRoundsHalfAwayFromZero := by
  intro s k mag h1 hexp hk hle hlt
  have hmag : magnitude s.opa s.opb.toNat = mag :=
    (magnitude_of_exp_add _ hexp hk).trans (roundShift_eq_of_bounds hle hlt)
  exact exec_f2x_of_normal h1 (show (s.opa.extractLsb' 23 8).toNat ≤ 254 by omega) hmag

/-- Settles O13: from exponent 150 up the magnitude is the scaled mantissa shifted left. -/
theorem f2xShiftsLargeExponentsLeft : Obligations.F2xShiftsLargeExponentsLeft := by
  intro s k hexp hk
  exact exec_f2x_of_normal (show 1 ≤ (s.opa.extractLsb' 23 8).toNat by omega)
    (show (s.opa.extractLsb' 23 8).toNat ≤ 254 by omega) (magnitude_of_exp_eq _ hexp)

/-- Settles O14: `saturate` is the signed magnitude clamped to the i32 range. -/
theorem finiteResultsSaturateToI32 : Obligations.FiniteResultsSaturateToI32 := by
  intro b d h1 h2
  have hpos (hsign : b.getLsbD 31 = false) : floatToFixed b d = min (magnitude b d : Int) 2147483647 := by
    rw [floatToFixed_of_normal d h1 h2, floatSign, hsign, saturate_pos]
  have hneg (hsign : b.getLsbD 31 = true) :
      floatToFixed b d = max (-(magnitude b d : Int)) (-2147483648) := by
    rw [floatToFixed_of_normal d h1 h2, floatSign, hsign, saturate_neg]
  obtain ⟨hlow, hhigh⟩ := floatToFixed_range b d
  refine ⟨fun hs hm => ?_, fun hs hm => ?_, fun hs hm => ?_, fun hs hm => ?_, toInt_enc32 hlow hhigh⟩
  · rw [hpos hs]; omega
  · rw [hpos hs]; omega
  · rw [hneg hs]; omega
  · rw [hneg hs]; omega

end Sys2Proof.Machine

/-! ### Normalisation (40_codec.md R124) -/

namespace Sys2Proof.Machine

/-- `m` and `e` are `q` brought into [2^23, 2^24) by truncating halvings, or by doublings, with the exponent
counted from 127 (40_codec.md R124). -/
def IsNormalForm (q m e : Nat) : Prop :=
  2 ^ 23 ≤ m ∧ m < 2 ^ 24 ∧ ((∃ h, m = q / 2 ^ h ∧ e = 127 + h) ∨ (∃ h, m = q * 2 ^ h ∧ e + h = 127))

theorem log_mul_two_pow {q : Nat} (hq : q ≠ 0) (h : Nat) : Nat.log 2 (q * 2 ^ h) = Nat.log 2 q + h := by
  induction h with
  | zero => simp
  | succ h ih =>
    rw [Nat.pow_succ, ← Nat.mul_assoc, Nat.log_mul_base (by decide) (by simp [hq]), ih, Nat.add_assoc]

/-- There is one normal form: the leading bit of `q`, at `log q`, goes to bit 23. -/
theorem IsNormalForm.eq_log {q m e : Nat} (hform : IsNormalForm q m e) :
    m = q * 2 ^ 23 / 2 ^ Nat.log 2 q ∧ e = 104 + Nat.log 2 q := by
  obtain ⟨hge, hlt, ⟨h, rfl, rfl⟩ | ⟨h, rfl, he⟩⟩ := hform
  · have hlog : Nat.log 2 q = 23 + h := by
      have hdiv : Nat.log 2 (q / 2 ^ h) = 23 := Nat.log_eq_of_pow_le_of_lt_pow hge hlt
      rw [Nat.log_div_base_pow] at hdiv
      omega
    rw [hlog, Nat.pow_add, Nat.mul_comm q, Nat.mul_div_mul_left _ _ (by decide)]
    exact ⟨rfl, by omega⟩
  · have hlog : Nat.log 2 q + h = 23 := by
      have hmul : Nat.log 2 (q * 2 ^ h) = 23 := Nat.log_eq_of_pow_le_of_lt_pow hge hlt
      have hq : q ≠ 0 := by rintro rfl; omega
      rwa [log_mul_two_pow hq] at hmul
    have hpow : 2 ^ 23 = 2 ^ h * 2 ^ Nat.log 2 q := by rw [← Nat.pow_add, Nat.add_comm h, hlog]
    rw [hpow, ← Nat.mul_assoc, Nat.mul_div_cancel _ (Nat.pow_pos (by decide))]
    exact ⟨rfl, by omega⟩

/-- The loops reach the normal form on the fuel R124 names: after a halving, no doubling runs. -/
theorem normalise_isNormalForm {q : Nat} (h1 : 1 ≤ q) (h2 : q ≤ 2 ^ 54) :
    IsNormalForm q (normalise q).1 (normalise q).2 := by
  obtain ⟨k, hk, hhalve, hlt, hge⟩ := halve_spec 31 q 127 (by omega)
  have hpos : 1 ≤ q / 2 ^ k := by
    by_cases hk0 : k = 0
    · simpa [hk0] using h1
    · exact le_trans (by decide) (hge hk0)
  obtain ⟨j, hj, hdouble, hge', hlt'⟩ := double_spec 23 (q / 2 ^ k) (127 + k) (by omega) (by omega)
  have hnorm : normalise q = (q / 2 ^ k * 2 ^ j, 127 + k - j) := by rw [normalise, hhalve, hdouble]
  rw [hnorm]
  by_cases hj0 : j = 0
  · subst hj0
    exact ⟨hge', by simpa using hlt, .inl ⟨k, Nat.mul_one _, rfl⟩⟩
  · have hk0 : k = 0 := by
      by_contra hk0
      have htwo : 2 ^ 1 ≤ 2 ^ j := Nat.pow_le_pow_right (by decide) (by omega)
      have := Nat.mul_le_mul (hge hk0) htwo
      have := hlt' hj0
      omega
    subst hk0
    exact ⟨hge', hlt' hj0, .inr ⟨j, by simp, by simp only; omega⟩⟩

/-- Whatever is in normal form is what normalisation answers. -/
theorem IsNormalForm.normalise_eq {q m e : Nat} (hform : IsNormalForm q m e) (h1 : 1 ≤ q)
    (h2 : q ≤ 2 ^ 54) : normalise q = (m, e) := by
  obtain ⟨hm, he⟩ := hform.eq_log
  obtain ⟨hm', he'⟩ := (normalise_isNormalForm h1 h2).eq_log
  exact Prod.ext (hm'.trans hm.symm) (he'.trans he.symm)

/-- The exponent of a quotient's normal form is in 104..158. -/
theorem IsNormalForm.exp_range {q m e : Nat} (hform : IsNormalForm q m e) (h2 : q ≤ 2 ^ 54) :
    104 ≤ e ∧ e ≤ 158 := by
  obtain ⟨-, rfl⟩ := hform.eq_log
  have hlog : Nat.log 2 q ≤ Nat.log 2 (2 ^ 54) := Nat.log_mono_right h2
  rw [Nat.log_pow (by decide)] at hlog
  omega

/-- Settles O21: the exponent's range bounds the halvings and the doublings. -/
theorem normalisationEndsInRange : Obligations.NormalisationEndsInRange := by
  intro q h1 h2
  have hform := normalise_isNormalForm h1 h2
  obtain ⟨hlow, hhigh⟩ := hform.exp_range h2
  obtain ⟨hge, hlt, ⟨h, hm, he⟩ | ⟨h, hm, he⟩⟩ := hform
  · exact ⟨hge, hlt, hlow, hhigh, .inl ⟨h, by omega, hm, he⟩⟩
  · exact ⟨hge, hlt, hlow, hhigh, .inr ⟨h, by omega, hm, he⟩⟩

end Sys2Proof.Machine

/-! ### `fixed_to_float` and X2F (40_codec.md R120 to R130) -/

namespace Sys2Proof.Machine

theorem natAbs_toInt_le (v : Word) : v.toInt.natAbs ≤ 2 ^ 31 := by
  have hlow := BitVec.le_toInt v
  have hhigh := BitVec.toInt_lt (x := v)
  omega

/-- The dividend of every operand, A * 2^23, is at most 2^54 (40_codec.md R122). -/
theorem dividend_le (v : Word) : v.toInt.natAbs * 2 ^ 23 ≤ 2 ^ 54 :=
  Nat.mul_le_mul_right (2 ^ 23) (natAbs_toInt_le v)

theorem fixedQuotient_le (v : Word) (d : Nat) : fixedQuotient v.toInt d ≤ 2 ^ 54 :=
  (Nat.div_le_self _ _).trans (dividend_le v)

/-- Settles O19: the quotient is a floor division, and no magnitude is above 2^31. -/
theorem x2fQuotientIsExactFloor : Obligations.X2fQuotientIsExactFloor := by
  intro v d
  have hpos : 0 < 10 ^ d := Nat.pow_pos (by decide)
  refine ⟨natAbs_toInt_le v, ?_, Nat.div_mul_le_self _ _, ?_, fixedQuotient_le v d⟩
  · rintro rfl
    decide
  · rw [Nat.mul_comm (_ + 1)]
    exact Nat.lt_mul_div_succ _ hpos

theorem fixedQuotient_eq_zero {v : Int} {d : Nat} (h : v.natAbs * 2 ^ 23 < 10 ^ d) : fixedQuotient v d = 0 :=
  Nat.div_eq_of_lt h

/-- From 17 decimals on the divisor is above every dividend: 2^54 < 10^17 (40_codec.md R128). -/
theorem fixedQuotient_eq_zero_of_le (v : Word) {d : Nat} (hd : 17 ≤ d) : fixedQuotient v.toInt d = 0 := by
  apply fixedQuotient_eq_zero
  calc v.toInt.natAbs * 2 ^ 23 ≤ 2 ^ 54 := dividend_le v
    _ < 10 ^ 17 := by norm_num
    _ ≤ 10 ^ d := Nat.pow_le_pow_right (by decide) hd

/-- A quotient of 0 gives +0.0 (40_codec.md R123). -/
theorem fixedToFloat_of_quotient_zero {v : Int} {d : Nat} (h : fixedQuotient v d = 0) :
    fixedToFloat v d = 0 := by
  rcases fixedToFloat_cases v d with hzero | ⟨hpos, -⟩
  · exact hzero
  · omega

/-- A normal form of the quotient is packed (40_codec.md R125). -/
theorem fixedToFloat_of_isNormalForm {v : Word} {d m e : Nat}
    (hform : IsNormalForm (fixedQuotient v.toInt d) m e) :
    fixedToFloat v.toInt d = packFloat (decide (v.toInt < 0)) m e := by
  have hq : fixedQuotient v.toInt d ≠ 0 := by
    intro hq
    obtain ⟨hge, -, ⟨h, hm, -⟩ | ⟨h, hm, -⟩⟩ := hform
    · rw [hq, Nat.zero_div] at hm; omega
    · rw [hq, Nat.zero_mul] at hm; omega
  have hv : v.toInt ≠ 0 := by
    intro hv
    exact hq (by rw [hv]; exact Nat.zero_div _)
  rw [fixedToFloat, if_neg hv, if_neg hq,
    hform.normalise_eq (Nat.one_le_iff_ne_zero.mpr hq) (fixedQuotient_le v d)]

/-- The finite datapath loses nothing: past 17 decimals the quotient is 0 either way (40_codec.md
R128). -/
theorem fixedToFloat_min (v : Word) (d : Nat) : fixedToFloat v.toInt (min d 17) = fixedToFloat v.toInt d := by
  rcases Nat.le_total d 17 with hd | hd
  · rw [Nat.min_eq_left hd]
  · rw [Nat.min_eq_right hd, fixedToFloat_of_quotient_zero (fixedQuotient_eq_zero_of_le v le_rfl),
      fixedToFloat_of_quotient_zero (fixedQuotient_eq_zero_of_le v hd)]

/-- Settles O25: 10^17 is above every dividend and below 2^57. -/
theorem x2fFiniteDatapathIsExact : Obligations.X2fFiniteDatapathIsExact := by
  intro v d
  refine ⟨fixedToFloat_min v d,
    fun hd => fixedToFloat_of_quotient_zero (fixedQuotient_eq_zero_of_le v hd), ?_, ?_⟩
  · calc v.toInt.natAbs * 2 ^ 23 ≤ 2 ^ 54 := dividend_le v
      _ < 2 ^ 55 := by norm_num
  · calc 10 ^ min d 17 ≤ 10 ^ 17 := Nat.pow_le_pow_right (by decide) (Nat.min_le_right d 17)
      _ < 2 ^ 57 := by norm_num

/-- X2F ends with the exact `fixed_to_float` of its operands. -/
theorem exec_x2f (s : State) :
    exec .x2f s = .next { s with result := fixedToFloat s.opa.toInt s.opb.toNat, err := 0 } := by
  have hfinish : exec .x2f s = finish (fixedToFloat s.opa.toInt (min s.opb.toNat 17)) s := rfl
  rw [hfinish, fixedToFloat_min, finish_eq]

/-- Settles O17: the finite datapath the command runs is exact. -/
theorem x2fWritesTheConvertedOperand : Obligations.X2fWritesTheConvertedOperand :=
  ⟨decodeWord_encode .x2f, exec_x2f⟩

/-- Settles O20: a divisor above the dividend leaves the quotient 0. -/
theorem x2fZeroQuotientIsPlusZero : Obligations.X2fZeroQuotientIsPlusZero := by
  intro s hlt
  rw [exec_x2f, fixedToFloat_of_quotient_zero (fixedQuotient_eq_zero hlt)]

/-- Settles O18: the quotient of 0 is 0, whatever the divisor. -/
theorem x2fOfZeroIsPlusZero : Obligations.X2fOfZeroIsPlusZero := by
  intro s hopa
  apply x2fZeroQuotientIsPlusZero s
  rw [hopa]
  exact Nat.pow_pos (by decide)

/-- Settles O22: the mantissa and exponent given are the quotient's one normal form. -/
theorem x2fPacksSignExponentMantissa : Obligations.X2fPacksSignExponentMantissa := by
  intro s m e h hge hlt hform
  have hnormal : IsNormalForm (fixedQuotient s.opa.toInt s.opb.toNat) m e :=
    ⟨hge, hlt, hform.imp (fun hhalved => ⟨h, hhalved⟩) (fun hdoubled => ⟨h, hdoubled⟩)⟩
  rw [exec_x2f, fixedToFloat_of_isNormalForm hnormal]
  rfl

end Sys2Proof.Machine

/-! ### DECODE (41_decoder.md R140 to R150) -/

namespace Sys2Proof.Machine

theorem assemble_LE_bufRead_two (m : Memory) (off : Nat) :
    BitVec.ofNat 16 (assemble .LE (bufRead m off 2)) = readByte m (off + 1) ++ readByte m off :=
  ofNat_leValue_two _ _

theorem assemble_BE_bufRead_two (m : Memory) (off : Nat) :
    BitVec.ofNat 16 (assemble .BE (bufRead m off 2)) = readByte m off ++ readByte m (off + 1) :=
  ofNat_leValue_two _ _

theorem assemble_LE_bufRead_four (m : Memory) (off : Nat) :
    BitVec.ofNat 32 (assemble .LE (bufRead m off 4)) =
      readByte m (off + 3) ++ readByte m (off + 2) ++ readByte m (off + 1) ++ readByte m off :=
  ofNat_leValue_four _ _ _ _

theorem assemble_BE_bufRead_four (m : Memory) (off : Nat) :
    BitVec.ofNat 32 (assemble .BE (bufRead m off 4)) =
      readByte m off ++ readByte m (off + 1) ++ readByte m (off + 2) ++ readByte m (off + 3) :=
  ofNat_leValue_four _ _ _ _

/-- The finite datapath of the Float32 arm loses nothing, and no other arm reads the decimal count
(41_decoder.md R145, 40_codec.md R109). -/
theorem decodeFormat_min (order : ByteOrder) (dec : Nat) (m : Memory) (index : Nat) (f : Format) :
    decodeFormat order (min dec 48) m index f = decodeFormat order dec m index f := by
  cases f with
  | float32 => exact floatToFixed_min _ dec
  | _ => rfl

/-- `decode_value` of an in-range index in a recognised format (41_decoder.md R141). -/
theorem decodeValue_of_formatOf {order : ByteOrder} {fmt : BitVec 3} {count dec index : Nat} {m : Memory}
    {f : Format} (hf : formatOf fmt = some f) (hindex : index < count) :
    decodeValue order fmt count dec m index = .ok (decodeFormat order dec m index f) := by
  simp [decodeValue, hf, hindex]

/-- DECODE of an in-range index in a recognised format ends with the value of that format, with the whole
decimal count. -/
theorem exec_decode_of_formatOf {s : State} {f : Format} (hf : formatOf s.fmt = some f)
    (hindex : s.opa.toNat < s.count.val) :
    exec .decode s = .next { s with
      result := enc32 (decodeFormat s.params.byteOrder s.dec.toNat s.buf s.opa.toNat f), err := 0 } := by
  have hvalue := decodeValue_of_formatOf (order := s.params.byteOrder) (dec := min s.dec.toNat 48) (m := s.buf)
    hf hindex
  rw [decodeFormat_min] at hvalue
  rcases execDecode_cases s with ⟨e, herror, -⟩ | ⟨z, hok, hfinish⟩
  · rw [hvalue] at herror
    cases herror
  · rw [hvalue] at hok
    cases hok
    exact hfinish

/-- Settles O27: sign extension keeps the byte's value, and `enc32` gives its pattern back. -/
theorem decodeInt8SignExtendsTheByte : Obligations.DecodeInt8SignExtendsTheByte := by
  intro s hfmt hindex
  have hf : formatOf s.fmt = some .int8 := by rw [hfmt]; rfl
  refine ⟨?_, ?_⟩
  · rw [exec_decode_of_formatOf hf hindex, decodeFormat, enc32_toInt_self]
  · rw [BitVec.toInt_signExtend_of_le (by decide)]
    exact ⟨BitVec.le_toInt _, Int.le_of_lt_add_one BitVec.toInt_lt⟩

/-- Settles O28: the two bytes are assembled as 20_memory.md R60 says, and `enc32` gives the pattern
back. -/
theorem decodeInt16AssemblesTwoBytes : Obligations.DecodeInt16AssemblesTwoBytes := by
  intro s hfmt hindex
  have hf : formatOf s.fmt = some .int16 := by rw [hfmt]; rfl
  rw [exec_decode_of_formatOf hf hindex, decodeFormat, enc32_toInt_self]
  refine ⟨fun horder => ?_, fun horder => ?_⟩
  · rw [horder, assemble_LE_bufRead_two]
  · rw [horder, assemble_BE_bufRead_two]

/-- Settles O29: the four bytes are assembled as 20_memory.md R60 says, and `enc32` gives the pattern
back. -/
theorem decodeInt32AssemblesFourBytes : Obligations.DecodeInt32AssemblesFourBytes := by
  intro s hfmt hindex
  have hf : formatOf s.fmt = some .int32 := by rw [hfmt]; rfl
  rw [exec_decode_of_formatOf hf hindex, decodeFormat, enc32_toInt_self]
  refine ⟨fun horder => ?_, fun horder => ?_⟩
  · rw [horder, assemble_LE_bufRead_four]
  · rw [horder, assemble_BE_bufRead_four]

/-- Settles O30: the four bytes are assembled as for Int32, and the finite datapath that converts them is
exact. -/
theorem decodeFloat32ConvertsFourBytes : Obligations.DecodeFloat32ConvertsFourBytes := by
  intro s hfmt hindex
  have hf : formatOf s.fmt = some .float32 := by rw [hfmt]; rfl
  rw [exec_decode_of_formatOf hf hindex, decodeFormat]
  refine ⟨fun horder => ?_, fun horder => ?_⟩
  · rw [horder, assemble_LE_bufRead_four]
  · rw [horder, assemble_BE_bufRead_four]

end Sys2Proof.Machine

/-! ### RDBOUND (41_decoder.md R160, R161) -/

namespace Sys2Proof.Machine

/-- RDBOUND ends with the exact `float_to_fixed` of the bound it selects. -/
theorem rdbound_eq (k : BoundSel) (s : State) :
    rdbound k s = .next { s with result := enc32 (floatToFixed (s.bound.get k) s.dec.toNat), err := 0 } := by
  have hfinish : rdbound k s = finish (enc32 (floatToFixed (s.bound.get k) (min s.dec.toNat 48))) s := rfl
  rw [hfinish, floatToFixed_min, finish_eq]

/-- Settles O34: each of the six commands is RDBOUND with its own selector, and SEL 6 and 7 select
nothing. -/
theorem rdboundConvertsTheStoredBound : Obligations.RdboundConvertsTheStoredBound := by
  refine ⟨⟨decodeWord_encode .rdboundRawMin, decodeWord_encode .rdboundRawMax,
    decodeWord_encode .rdboundPctMin, decodeWord_encode .rdboundPctMax, decodeWord_encode .rdboundSiMin,
    decodeWord_encode .rdboundSiMax, by decide, by decide⟩, fun s => ?_⟩
  exact ⟨rdbound_eq .rawMin s, rdbound_eq .rawMax s, rdbound_eq .pctMin s, rdbound_eq .pctMax s,
    rdbound_eq .siMin s, rdbound_eq .siMax s⟩

end Sys2Proof.Machine

/-! ### NOP (42_control.md R180) -/

namespace Sys2Proof.Machine

/-- NOP does not end by `finish`, so RESULT stays (42_control.md R180). -/
theorem exec_nop (s : State) : exec .nop s = .next { s with err := 0 } := rfl

/-- The low four bits of an instruction's word are its OP (30_encoding.md R80). -/
theorem extractLsb'_encode_op (i : Instr) : (encode i).extractLsb' 0 4 = i.op := by
  cases i <;> rfl

/-- OP = 0 belongs to NOP alone (30_encoding.md R81). -/
theorem op_eq_zero_iff {i : Instr} : i.op = 0 ↔ i = .nop := by
  cases i <;> decide

/-- Among the words with OP = 0 only NOP's own decodes (30_encoding.md R87). -/
theorem decodeWord_eq_none_of_op_zero {w : Word} (hop : w.extractLsb' 0 4 = 0) (hw : w ≠ encode .nop) :
    decodeWord w = none := by
  refine Option.eq_none_iff_forall_ne_some.mpr fun i hi => ?_
  have henc : w = encode i := eq_encode_of_decodeWord hi
  have hnop : i = .nop := by
    rw [henc, extractLsb'_encode_op] at hop
    exact op_eq_zero_iff.mp hop
  exact hw (hnop ▸ henc)

/-- Settles O7: the word 0 is NOP's own, and NOP is the only instruction with OP = 0. -/
theorem nopClearsErrOnly : Obligations.NopClearsErrOnly :=
  ⟨decodeWord_encode .nop, exec_nop, fun _ => decodeWord_eq_none_of_op_zero⟩

end Sys2Proof.Machine

/-! ### Errors (60_exceptions.md R200 to R207) -/

namespace Sys2Proof.Machine

/-- The unrecognised tags are 4 to 7 (41_decoder.md R140). -/
theorem formatOf_eq_none_iff : ∀ {fmt : BitVec 3}, formatOf fmt = none ↔ 4 ≤ fmt.toNat := by
  decide

/-- The recognised tags are 0 to 3 (41_decoder.md R140). -/
theorem exists_formatOf {fmt : BitVec 3} (h : fmt.toNat ≤ 3) : ∃ f, formatOf fmt = some f := by
  refine Option.ne_none_iff_exists'.mp fun hnone => ?_
  have := formatOf_eq_none_iff.mp hnone
  omega

/-- The index is checked before the format is looked at (41_decoder.md R141). -/
theorem decodeValue_of_count_le {order : ByteOrder} {fmt : BitVec 3} {count dec index : Nat} {m : Memory}
    (h : count ≤ index) : decodeValue order fmt count dec m index = .error .indexOutOfRange :=
  if_pos h

/-- The format dispatch of an in-range index with a tag that names no format (41_decoder.md R141). -/
theorem decodeValue_of_formatOf_none {order : ByteOrder} {fmt : BitVec 3} {count dec index : Nat}
    {m : Memory} (hf : formatOf fmt = none) (hindex : index < count) :
    decodeValue order fmt count dec m index = .error .unsupportedFormat := by
  simp [decodeValue, hf, hindex]

/-- An error of `decode_value` is raised by DECODE (41_decoder.md R150). -/
theorem exec_decode_of_error {s : State} {e : CmdError}
    (h : decodeValue s.params.byteOrder s.fmt s.count.val (min s.dec.toNat 48) s.buf s.opa.toNat = .error e) :
    exec .decode s = .next { s with err := errCode e } := by
  rcases execDecode_cases s with ⟨e', herror, hraise⟩ | ⟨z, hok, -⟩
  · rw [h] at herror
    cases herror
    exact hraise
  · rw [h] at hok
    cases hok

/-- Settles O31: the index check comes first, so the tag and the buffer are not read. -/
theorem decodeIndexAtOrPastCountFails : Obligations.DecodeIndexAtOrPastCountFails := by
  intro s h
  exact exec_decode_of_error (decodeValue_of_count_le h)

/-- DECODE of an in-range index with a tag that names no format (60_exceptions.md R203). -/
theorem exec_decode_of_unrecognised {s : State} (hindex : s.opa.toNat < s.count.val)
    (hfmt : 4 ≤ s.fmt.toNat) : exec .decode s = .next { s with err := 2 } :=
  exec_decode_of_error (decodeValue_of_formatOf_none (formatOf_eq_none_iff.mpr hfmt) hindex)

/-- A value of three bits is stored in MODE_FMT whole (10_state.md R26). -/
theorem setFmt_fmt_toNat (s : State) {v : Word} (h : v.toNat ≤ 7) : (s.setFmt v).fmt.toNat = v.toNat := by
  rw [State.setFmt_fmt, BitVec.extractLsb'_toNat, Nat.shiftRight_zero]
  omega

/-- Settles O32: the index check passes and the dispatch finds no format; MODE_FMT keeps three bits, so it
holds every unrecognised tag. -/
theorem decodeUnrecognisedFormatFails : Obligations.DecodeUnrecognisedFormatFails := by
  refine ⟨fun s => exec_decode_of_unrecognised, fun s rest v _ hle hport => ?_⟩
  have hstep : step s = writeReg .modeFmt v (s.setPort rest) := step_writeReg rfl hport
  exact ⟨_, hstep, setFmt_fmt_toNat (s.setPort rest) hle⟩

/-- Settles O36: every command but DECODE ends by `finish` or as NOP does, and DECODE raises nothing once
its index is in range and its tag recognised. -/
theorem legalCommandsSucceed : Obligations.LegalCommandsSucceed := by
  intro i s hdecode
  rcases exec_cases i s with ⟨-, hnop⟩ | ⟨v, hfinish⟩ | ⟨rfl, -⟩
  · exact ⟨_, hnop, rfl⟩
  · exact ⟨_, hfinish, rfl⟩
  · obtain ⟨hindex, hfmt⟩ := hdecode rfl
    obtain ⟨f, hf⟩ := exists_formatOf hfmt
    exact ⟨_, exec_decode_of_formatOf hf hindex, rfl⟩

/-- ERR after a legal command: only DECODE fails, on its index before its format (60_exceptions.md R206,
R207). -/
theorem exec_err (i : Instr) (s : State) :
    ∃ t, exec i s = .next t ∧
      t.err = if i = .decode ∧ s.count.val ≤ s.opa.toNat then 1
        else if i = .decode ∧ 4 ≤ s.fmt.toNat then 2
        else 0 := by
  split_ifs with hindex hfmt
  · obtain ⟨rfl, hle⟩ := hindex
    exact ⟨_, decodeIndexAtOrPastCountFails s hle, rfl⟩
  · obtain ⟨rfl, hfour⟩ := hfmt
    have hlt : s.opa.toNat < s.count.val := by simpa using hindex
    exact ⟨_, exec_decode_of_unrecognised hlt hfour, rfl⟩
  · exact legalCommandsSucceed i s fun hi =>
      ⟨not_le.mp fun hle => hindex ⟨hi, hle⟩, Nat.le_of_lt_succ (not_le.mp fun hle => hfmt ⟨hi, hle⟩)⟩

/-- The word 3 is DECODE's own (30_encoding.md R83). -/
theorem encode_eq_three_iff {i : Instr} : encode i = 3 ↔ i = .decode := by
  cases i <;> decide

theorem runCommand_of_decodeWord {w : Word} {i : Instr} (s : State) (h : decodeWord w = some i) :
    runCommand w s = exec i (s.setCmd w) := by
  rw [runCommand, h]

theorem runCommand_of_illegal {w : Word} (s : State) (h : w ∉ legalWords) :
    runCommand w s = raise .illegalCommand (s.setCmd w) := by
  have hnone : decodeWord w = none :=
    Option.eq_none_iff_forall_ne_some.mpr fun i hi => h (mem_legalWords_iff.mpr ⟨i, hi⟩)
  rw [runCommand, hnone]

/-- Settles O37: legality is decided before the command runs, and `exec_err` gives the order of DECODE's
two checks; storing the word leaves OPA, COUNT and FMT as they were. -/
theorem errAfterACommandFollowsThePriority : Obligations.ErrAfterACommandFollowsThePriority := by
  intro s rest w hport
  rw [step_cmd hport]
  by_cases hw : w ∈ legalWords
  · obtain ⟨i, hi⟩ := mem_legalWords_iff.mp hw
    obtain rfl : w = encode i := eq_encode_of_decodeWord hi
    rw [runCommand_of_decodeWord _ hi, if_neg (not_not_intro hw)]
    simp only [encode_eq_three_iff]
    exact exec_err i _
  · rw [runCommand_of_illegal _ hw, if_pos hw]
    exact ⟨_, rfl, rfl⟩

end Sys2Proof.Machine

/-! ### Reset (70_reset_and_hazards.md R230, R231) -/

namespace Sys2Proof.Machine

/-- A reset at the port, as a step (70_reset_and_hazards.md R230). -/
theorem step_reset {s : State} {rest : List HostEvent} (hport : s.port = .reset :: rest) :
    step s = .next (s.setPort rest).resetEvent := by
  simp [step, serve, hport]

/-- The empty buffer reads 0x00 everywhere (10_state.md R30). -/
theorem readByte_nil (a : Nat) : readByte [] a = 0 := rfl

/-- Settles O48: the step is the reset event, which overwrites every register and empties the buffer,
whatever they held. -/
theorem resetEventSetsEveryRegister : Obligations.ResetEventSetsEveryRegister := by
  intro s rest hport
  exact ⟨_, step_reset hport, rfl, rfl, rfl, rfl, rfl, rfl, rfl, rfl, rfl, readByte_nil⟩

/-- RDBOUND of a bound that holds +0.0 gives 0, with any decimal count (41_decoder.md R160, 40_codec.md
R102). -/
theorem rdbound_of_zero {k : BoundSel} {s : State} (h : s.bound.get k = 0) :
    rdbound k s = .next { s with result := 0, err := 0 } := by
  have hexp : floatExp 0 = 0 := by decide
  rw [rdbound_eq, h, floatToFixed_of_exp_zero _ hexp]
  rfl

/-- After reset every bound is +0.0 (70_reset_and_hazards.md R231). -/
theorem bound_get_reset (k : BoundSel) : State.reset.bound.get k = 0 := by
  cases k <;> rfl

/-- Every RDBOUND of the reset state gives 0 (70_reset_and_hazards.md R231). -/
theorem rdbound_reset (k : BoundSel) : rdbound k State.reset = .next State.reset :=
  rdbound_of_zero (bound_get_reset k)

/-- What each command gives from the reset state: DECODE finds COUNT 0, so even index 0 is out of range;
the conversions find only zeros (70_reset_and_hazards.md R231). -/
theorem exec_reset (i : Instr) :
    exec i State.reset = .next { State.reset with err := if i = .decode then 1 else 0 } := by
  cases i with
  | nop => exact exec_nop State.reset
  | f2x => exact f2xOfZeroOrDenormalIsZero State.reset (by decide)
  | x2f => exact x2fOfZeroIsPlusZero State.reset rfl
  | decode => exact decodeIndexAtOrPastCountFails State.reset (Nat.le_refl 0)
  | rdboundRawMin => exact rdbound_reset .rawMin
  | rdboundRawMax => exact rdbound_reset .rawMax
  | rdboundPctMin => exact rdbound_reset .pctMin
  | rdboundPctMax => exact rdbound_reset .pctMax
  | rdboundSiMin => exact rdbound_reset .siMin
  | rdboundSiMax => exact rdbound_reset .siMax

/-- Settles O49: the registers are those of the reset state, and `exec_reset` gives the commands. -/
theorem stateAfterReset : Obligations.StateAfterReset :=
  ⟨rfl, rfl, rfl, rfl, rfl, rfl, rfl, rfl, rfl, readByte_nil, exec_reset⟩

end Sys2Proof.Machine

/-! ### Encoding (30_encoding.md R80 to R87) -/

namespace Sys2Proof.Machine

/-- No instruction has an operand that could be ill formed (30_encoding.md R85). -/
theorem wellFormed_eq_true (i : Instr) : i.wellFormed = true := by
  cases i <;> rfl

/-- Settles O1: a word is its three fields, and each field of a word that decodes is the instruction's
own. -/
theorem decodeIsTheInverseOfEncode : Obligations.DecodeIsTheInverseOfEncode :=
  ⟨fun i _ => decodeWord_encode i, fun _ i h => ⟨eq_encode_of_decodeWord h, wellFormed_eq_true i⟩⟩

/-- The decoder answers for OP and SEL exactly where R84's condition on them holds. -/
theorem decodeOp_isSome :
    ∀ op sel, (decodeOp op sel).isSome = CommandFields.opSelLegal { op := op, sel := sel, rsv := 0 } := by
  decide

/-- The decoder, which does not use the well-formedness check, agrees with it (30_encoding.md R84). -/
theorem wellFormed_fieldsOf (w : Word) : (fieldsOf w).wellFormed = (decodeWord w).isSome := by
  unfold CommandFields.wellFormed decodeWord
  split
  next hrsv =>
    rw [decodeOp_isSome, hrsv]
    rfl
  next hrsv =>
    rw [beq_false_of_ne hrsv]
    rfl

/-- `legal` of 30_encoding.md R84, on the three fields. -/
theorem wellFormed_iff (f : CommandFields) :
    f.wellFormed = true ↔
      f.rsv = 0 ∧ ((f.op.toNat ≤ 3 ∧ f.sel = 0) ∨ (f.op = 4 ∧ f.sel.toNat ≤ 5)) := by
  simp only [CommandFields.wellFormed, CommandFields.opSelLegal, Bool.and_eq_true, Bool.or_eq_true,
    beq_iff_eq, decide_eq_true_eq]

/-- Settles O3: the decoder agrees with the well-formedness check, and the check is R84's `legal`. -/
theorem legalityIsDecidedByTheFields : Obligations.LegalityIsDecidedByTheFields := by
  intro w
  refine ⟨?_, wellFormed_fieldsOf w⟩
  rw [← wellFormed_fieldsOf]
  exact wellFormed_iff (fieldsOf w)

/-- A word that R84 does not call legal decodes to nothing. -/
theorem decodeWord_eq_none_of_wellFormed_false {w : Word} (h : (fieldsOf w).wellFormed = false) :
    decodeWord w = none := by
  rw [wellFormed_fieldsOf] at h
  simpa using h

/-- Settles O4: each legal word is an instruction's own, and each illegal one fails the check on its
fields. -/
theorem writtenOutWordsDecode : Obligations.WrittenOutWordsDecode :=
  ⟨decodeWord_encode .nop, decodeWord_encode .f2x, decodeWord_encode .decode,
    decodeWord_encode .rdboundSiMax, decodeWord_eq_none_of_wellFormed_false rfl,
    decodeWord_eq_none_of_wellFormed_false rfl, decodeWord_eq_none_of_wellFormed_false rfl,
    decodeWord_eq_none_of_wellFormed_false rfl⟩

end Sys2Proof.Machine

/-! ### A CMD write (30_encoding.md R84, 60_exceptions.md R204, R205) -/

namespace Sys2Proof.Machine

/-- Settles O5: a write at the base is a write of CMD, which runs the decoded command. -/
theorem stepRunsTheDecodedCommand : Obligations.StepRunsTheDecodedCommand := by
  intro s rest w i hport hdecode
  rw [step_cmd hport, runCommand_of_decodeWord _ hdecode]
  rfl

/-- Settles O6: a word that is not one of the ten raises IllegalCommand, whose code is 3. -/
theorem illegalWordSetsCmdAndErrOnly : Obligations.IllegalWordSetsCmdAndErrOnly := by
  intro s rest w hillegal hport
  rw [step_cmd hport, runCommand_of_illegal _ hillegal]
  rfl

/-- A command that ends with an error has written ERR only: `finish` and NOP leave ERR = OK
(60_exceptions.md R205). -/
theorem exec_error_frame (i : Instr) (s : State) :
    ∃ t, exec i s = .next t ∧ (t.err ≠ 0 → t = { s with err := t.err }) := by
  rcases exec_cases i s with ⟨-, hnop⟩ | ⟨v, hfinish⟩ | ⟨-, e, hraise⟩
  · exact ⟨_, hnop, fun _ => rfl⟩
  · exact ⟨_, hfinish, fun herr => absurd rfl herr⟩
  · exact ⟨_, hraise, fun _ => rfl⟩

/-- Settles O38: a legal word leaves the error, if any, to its command, and an illegal one raises one. -/
theorem errorsLeaveResultUnchanged : Obligations.ErrorsLeaveResultUnchanged := by
  intro s rest w hport
  by_cases hw : w ∈ legalWords
  · obtain ⟨i, hdecode⟩ := mem_legalWords_iff.mp hw
    rw [step_cmd hport, runCommand_of_decodeWord _ hdecode]
    exact exec_error_frame i _
  · exact ⟨_, illegalWordSetsCmdAndErrOnly s rest w hw hport, fun _ => rfl⟩

end Sys2Proof.Machine

/-! ### The invariant (10_state.md R30, 60_exceptions.md R200) -/

namespace Sys2Proof.Machine

/-- Settles O51: the empty buffer is canonical, and ERR is 0. -/
theorem invHoldsAtReset : Obligations.InvHoldsAtReset := ⟨rfl, by decide⟩

/-- An admitted write of the buffer stays inside it (20_memory.md R52). -/
theorem laneBytes_inside {off : Nat} {n : Width} (data : Word) (hl : 0x40 ≤ off)
    (hh : off + widthBytes n ≤ 0x60) : off - 0x40 + (laneBytes data 0 (widthBytes n)).length ≤ 32 := by
  rw [laneBytes_length]
  omega

/-- A write of the window keeps the invariant: a command's code is at most 3, and a buffer write stays
inside the buffer. -/
theorem WriteEffect.inv {s t : State} {off : Nat} {n : Width} {data : Word}
    (heffect : WriteEffect s off n data t) (hinv : s.Inv) : t.Inv := by
  obtain ⟨hbuf, herr⟩ := hinv
  cases heffect with
  | cmd v e hn ho he => exact ⟨hbuf, he⟩
  | buf ha hl hh => exact ⟨bufWrite_wf hbuf (laneBytes_inside data hl hh), herr⟩
  | _ => exact ⟨hbuf, herr⟩

/-- Settles O50: a step serves nothing, a reset, a write or a read, and a read changes no register and no
byte. -/
theorem everyStepKeepsTheInvariant : Obligations.EveryStepKeepsTheInvariant := by
  intro s t hinv hstep
  rcases step_cases hstep with
    ⟨-, rfl⟩ | ⟨_, -, rfl⟩ | ⟨_, _, _, _, -, -, heffect⟩ | ⟨_, _, _, -, -, rfl⟩
  · exact hinv
  · exact invHoldsAtReset
  · exact heffect.inv hinv
  · exact hinv

end Sys2Proof.Machine

/-! ### F2X is monotonic (40_codec.md R105 to R107) -/

namespace Sys2Proof.Machine

/-- The magnitude of a finite float times 2^150 (00_scope.md R12; for a subnormal, log entry 14). -/
def scaledMagnitude (b : Word) : Nat :=
  if floatExp b = 0 then 2 * floatFrac b else (2 ^ 23 + floatFrac b) * 2 ^ floatExp b

theorem floatScaledValue_eq (b : Word) :
    floatScaledValue b = if floatSign b then -(scaledMagnitude b : Int) else scaledMagnitude b := rfl

theorem scaledMagnitude_of_exp_zero {b : Word} (h : floatExp b = 0) : scaledMagnitude b = 2 * floatFrac b :=
  if_pos h

theorem scaledMagnitude_of_normal {b : Word} (h : 1 ≤ floatExp b) :
    scaledMagnitude b = (2 ^ 23 + floatFrac b) * 2 ^ floatExp b :=
  if_neg (by omega)

/-- Every subnormal is below every normal float, in magnitude. -/
theorem scaledMagnitude_lt_of_exp_zero {a b : Word} (ha : floatExp a = 0) (hb : 1 ≤ floatExp b) :
    scaledMagnitude a < scaledMagnitude b := by
  have hfrac := floatFrac_lt a
  rw [scaledMagnitude_of_exp_zero ha, scaledMagnitude_of_normal hb]
  calc 2 * floatFrac a < 2 ^ 23 * 2 ^ 1 := by omega
    _ ≤ (2 ^ 23 + floatFrac b) * 2 ^ floatExp b :=
      Nat.mul_le_mul (Nat.le_add_right _ _) (Nat.pow_le_pow_right (by decide) hb)

theorem roundShift_mono {m m' : Nat} (k : Nat) (h : m ≤ m') : roundShift m k ≤ roundShift m' k :=
  Nat.div_le_div_right (Nat.add_le_add_right h _)

/-- A shift left before the rounded shift shortens it. -/
theorem roundShift_mul_two_pow (m j : Nat) {k : Nat} (hk : 1 ≤ k) :
    roundShift (m * 2 ^ j) (j + k) = roundShift m k := by
  have hhalf : 2 ^ (j + k - 1) = 2 ^ (k - 1) * 2 ^ j := by
    rw [← Nat.pow_add]
    congr 1
    omega
  rw [roundShift, hhalf, ← Nat.add_mul, Nat.pow_add, Nat.mul_comm (2 ^ j),
    Nat.mul_div_mul_right _ _ (Nat.pow_pos (by decide)), roundShift]

/-- A rounded shift of an exact multiple is exact. -/
theorem roundShift_mul_self (m : Nat) {k : Nat} (hk : 1 ≤ k) : roundShift (m * 2 ^ k) k = m := by
  have hhalf : 2 ^ (k - 1) < 2 ^ k := Nat.pow_lt_pow_right (by decide) (by omega)
  refine roundShift_eq_of_bounds ?_ ?_
  · rw [Nat.mul_comm]
    exact Nat.le_add_right _ _
  · rw [Nat.mul_comm _ (m + 1), Nat.add_mul, Nat.one_mul]
    exact Nat.add_lt_add_left hhalf _

/-- One formula for both exponent ranges of R105 and R106: the magnitude is the value, scaled by 10^d and
rounded from its 150 fraction bits. -/
theorem magnitude_eq_roundShift {b : Word} (d : Nat) (h1 : 1 ≤ floatExp b) (h2 : floatExp b ≤ 254) :
    magnitude b d = roundShift (scaledMagnitude b * 10 ^ d) 150 := by
  have hscaled : scaledMagnitude b * 10 ^ d = scaledMantissa b d * 2 ^ floatExp b := by
    rw [scaledMagnitude_of_normal h1, scaledMantissa]
    ring
  rw [hscaled]
  rcases exp_cases h1 h2 with ⟨k, hexp, hk, -⟩ | ⟨k, hexp, -⟩
  · rw [magnitude_of_exp_add d hexp hk, ← hexp, roundShift_mul_two_pow _ _ hk]
  · rw [magnitude_of_exp_eq d hexp, hexp, Nat.add_comm, Nat.pow_add, ← Nat.mul_assoc,
      roundShift_mul_self _ (by decide)]

/-- The magnitude of the result before the range: 0 for exponent field 0 (40_codec.md R102), R105's or
R106's otherwise. -/
def fixedMagnitude (b : Word) (d : Nat) : Nat := if floatExp b = 0 then 0 else magnitude b d

theorem fixedMagnitude_of_exp_zero {b : Word} (d : Nat) (h : floatExp b = 0) : fixedMagnitude b d = 0 :=
  if_pos h

theorem fixedMagnitude_of_normal {b : Word} (d : Nat) (h1 : 1 ≤ floatExp b) (h2 : floatExp b ≤ 254) :
    fixedMagnitude b d = roundShift (scaledMagnitude b * 10 ^ d) 150 := by
  rw [fixedMagnitude, if_neg (by omega), magnitude_eq_roundShift d h1 h2]

theorem floatToFixed_of_finite {b : Word} (d : Nat) (h : floatExp b ≠ 255) :
    floatToFixed b d = saturate (floatSign b) (fixedMagnitude b d) := by
  rcases exp_zero_or_normal_or_max b with hzero | ⟨h1, h2⟩ | hmax
  · rw [floatToFixed_of_exp_zero d hzero, fixedMagnitude_of_exp_zero d hzero]
    cases floatSign b <;> rfl
  · rw [floatToFixed_of_normal d h1 h2, fixedMagnitude, if_neg (by omega)]
  · exact absurd hmax h

/-- The larger of two finite floats, in magnitude, does not give the smaller fixed magnitude. -/
theorem fixedMagnitude_mono {a b : Word} (d : Nat) (ha : floatExp a ≠ 255) (hb : floatExp b ≠ 255)
    (h : scaledMagnitude a ≤ scaledMagnitude b) : fixedMagnitude a d ≤ fixedMagnitude b d := by
  rcases exp_zero_or_normal_or_max a with hzero | ⟨ha1, ha2⟩ | hmax
  · rw [fixedMagnitude_of_exp_zero d hzero]
    exact Nat.zero_le _
  · rcases exp_zero_or_normal_or_max b with hzero | ⟨hb1, hb2⟩ | hmax
    · have := scaledMagnitude_lt_of_exp_zero hzero ha1
      omega
    · rw [fixedMagnitude_of_normal d ha1 ha2, fixedMagnitude_of_normal d hb1 hb2]
      exact roundShift_mono 150 (Nat.mul_le_mul_right _ h)
    · exact absurd hmax hb
  · exact absurd hmax ha

theorem fixedMagnitude_eq_zero {b : Word} (d : Nat) (h : scaledMagnitude b = 0) : fixedMagnitude b d = 0 := by
  apply fixedMagnitude_of_exp_zero
  by_contra hexp
  have hpos : 0 < 2 ^ floatExp b := Nat.pow_pos (by decide)
  rw [scaledMagnitude_of_normal (Nat.one_le_iff_ne_zero.mpr hexp), Nat.mul_eq_zero] at h
  omega

/-- `float_to_fixed` is monotonic over finite floats: by sign, then by magnitude. -/
theorem floatToFixed_mono {a b : Word} (d : Nat) (ha : floatExp a ≠ 255) (hb : floatExp b ≠ 255)
    (h : floatScaledValue a ≤ floatScaledValue b) : floatToFixed a d ≤ floatToFixed b d := by
  have hab := fixedMagnitude_mono d ha hb
  have hba := fixedMagnitude_mono d hb ha
  rw [floatScaledValue_eq, floatScaledValue_eq] at h
  rw [floatToFixed_of_finite d ha, floatToFixed_of_finite d hb]
  cases hsa : floatSign a <;> cases hsb : floatSign b <;>
    simp only [hsa, hsb, Bool.false_eq_true, if_true, if_false] at h
  case false.false =>
    rw [saturate_pos, saturate_pos]
    omega
  case false.true =>
    rw [fixedMagnitude_eq_zero d (b := a) (by omega), fixedMagnitude_eq_zero d (b := b) (by omega)]
    decide
  case true.false =>
    rw [saturate_neg, saturate_pos]
    omega
  case true.true =>
    rw [saturate_neg, saturate_neg]
    omega

/-- Settles O15: `float_to_fixed` is monotonic, and its results are in the i32 range. -/
theorem f2xIsMonotonic : Obligations.F2xIsMonotonic := by
  intro s t hopb hs ht hle
  refine ⟨_, _, exec_f2x s, exec_f2x t, ?_⟩
  obtain ⟨hslow, hshigh⟩ := floatToFixed_range s.opa s.opb.toNat
  obtain ⟨htlow, hthigh⟩ := floatToFixed_range t.opa t.opb.toNat
  rw [toInt_enc32 hslow hshigh, toInt_enc32 htlow hthigh, hopb]
  exact floatToFixed_mono _ hs ht hle

end Sys2Proof.Machine

/-! ### The fields of X2F's result (40_codec.md R124 to R126) -/

namespace Sys2Proof.Machine

/-- Halving truncates and doubling is exact, so a normal form is not above its quotient. -/
theorem IsNormalForm.mul_two_pow_le {q m e : Nat} (hform : IsNormalForm q m e) : m * 2 ^ e ≤ q * 2 ^ 127 := by
  obtain ⟨-, -, ⟨h, rfl, rfl⟩ | ⟨h, rfl, he⟩⟩ := hform
  · calc q / 2 ^ h * 2 ^ (127 + h) = q / 2 ^ h * 2 ^ h * 2 ^ 127 := by ring
      _ ≤ q * 2 ^ 127 := Nat.mul_le_mul_right _ (Nat.div_mul_le_self _ _)
  · rw [Nat.mul_assoc, ← Nat.pow_add, Nat.add_comm, he]

/-- `fixed_to_float` of a 32-bit value gives +0.0, or a float whose fields are a normal form of the
quotient under the value's sign. -/
theorem fixedToFloat_fields (v : Word) (d : Nat) :
    fixedToFloat v.toInt d = 0 ∨
      ∃ m e, IsNormalForm (fixedQuotient v.toInt d) m e ∧ 104 ≤ e ∧ e ≤ 158 ∧
        floatSign (fixedToFloat v.toInt d) = decide (v.toInt < 0) ∧ floatExp (fixedToFloat v.toInt d) = e ∧
        2 ^ 23 + floatFrac (fixedToFloat v.toInt d) = m := by
  rcases fixedToFloat_cases v.toInt d with hzero | ⟨hpos, -⟩
  · exact .inl hzero
  · obtain ⟨m, e, hform⟩ : ∃ m e, IsNormalForm (fixedQuotient v.toInt d) m e :=
      ⟨_, _, normalise_isNormalForm hpos (fixedQuotient_le v d)⟩
    obtain ⟨hlow, hhigh⟩ := hform.exp_range (fixedQuotient_le v d)
    obtain ⟨hge, hlt, -⟩ := id hform
    obtain ⟨hsign, hexp, hfrac⟩ := packFloat_fields (decide (v.toInt < 0)) m e hge hlt (by omega)
    rw [fixedToFloat_of_isNormalForm hform]
    exact .inr ⟨m, e, hform, hlow, hhigh, hsign, hexp, by omega⟩

/-- Settles O23: a nonzero result is packed from a normal form, whose exponent is in range. -/
theorem x2fGivesPlusZeroOrANormal : Obligations.X2fGivesPlusZeroOrANormal := by
  intro s
  refine ⟨_, exec_x2f s, ?_⟩
  rcases fixedToFloat_fields s.opa s.opb.toNat with hzero | ⟨m, e, -, hlow, hhigh, hsign, rfl, -⟩
  · exact .inl hzero
  · exact .inr ⟨hlow, hhigh, by rw [hsign, decide_eq_true_eq]⟩

/-- Settles O24: the normal form is not above the quotient, and the quotient is rounded down. -/
theorem x2fNeverExceedsTheExactValue : Obligations.X2fNeverExceedsTheExactValue := by
  intro s
  refine ⟨_, exec_x2f s, fun hne => ?_⟩
  rcases fixedToFloat_fields s.opa s.opb.toNat with hzero | ⟨m, e, hform, -, -, -, rfl, rfl⟩
  · exact absurd hzero hne
  · have hquotient : fixedQuotient s.opa.toInt s.opb.toNat * 10 ^ s.opb.toNat ≤ s.opa.toInt.natAbs * 2 ^ 23 :=
      Nat.div_mul_le_self _ _
    calc _ ≤ fixedQuotient s.opa.toInt s.opb.toNat * 2 ^ 127 * 10 ^ s.opb.toNat :=
          Nat.mul_le_mul_right _ hform.mul_two_pow_le
      _ = fixedQuotient s.opa.toInt s.opb.toNat * 10 ^ s.opb.toNat * 2 ^ 127 := Nat.mul_right_comm _ _ _
      _ ≤ s.opa.toInt.natAbs * 2 ^ 23 * 2 ^ 127 := Nat.mul_le_mul_right _ hquotient
      _ = s.opa.toInt.natAbs * 2 ^ 150 := by rw [Nat.mul_assoc, ← Nat.pow_add]

end Sys2Proof.Machine

/-! ### What DECODE reads of the buffer (20_memory.md section 5) -/

namespace Sys2Proof.Machine

/-- The value of a format depends on the `width` bytes at `index * width` only. -/
theorem decodeFormat_congr {order : ByteOrder} {dec index : Nat} {m m' : Memory} {f : Format}
    (h : ∀ a, index * formatWidth f ≤ a → a < index * formatWidth f + formatWidth f →
      readByte m a = readByte m' a) :
    decodeFormat order dec m index f = decodeFormat order dec m' index f := by
  have hread : bufRead m (index * formatWidth f) (formatWidth f) =
      bufRead m' (index * formatWidth f) (formatWidth f) := bufRead_congr h
  rw [Nat.mul_comm] at hread
  cases f with
  | int8 =>
    simp only [formatWidth, Nat.one_mul, bufRead, List.cons.injEq, and_true] at hread
    rw [decodeFormat, decodeFormat, hread]
  | _ =>
    simp only [formatWidth] at hread
    rw [decodeFormat, decodeFormat, hread]

/-- DECODE of an in-range index in a recognised format, with another buffer that agrees on the selected
value's bytes. -/
theorem exec_decode_congr {s t : State} {m : Memory} {f : Format} (hf : formatOf s.fmt = some f)
    (hindex : s.opa.toNat < s.count.val)
    (hbytes : ∀ a, s.opa.toNat * formatWidth f ≤ a → a < s.opa.toNat * formatWidth f + formatWidth f →
      readByte m a = readByte s.buf a)
    (h : exec .decode s = .next t) : exec .decode (s.setBuf m) = .next (t.setBuf m) := by
  rw [exec_decode_of_formatOf hf hindex] at h
  cases h
  rw [← decodeFormat_congr hbytes]
  exact exec_decode_of_formatOf (s := s.setBuf m) hf hindex

/-- The values below COUNT, at most 8 of at most 4 bytes, fit in the buffer (20_memory.md section 5). -/
theorem count_mul_formatWidth_le (c : Fin 9) (f : Format) : c.val * formatWidth f ≤ 32 := by
  cases f <;> simp only [formatWidth] <;> omega

/-- Settles O33: an out-of-range index and an unrecognised tag fail before any byte is read; a value below
COUNT lies before the value at COUNT. -/
theorem decodeReadsOnlyTheSelectedValue : Obligations.DecodeReadsOnlyTheSelectedValue := by
  refine ⟨fun s t m hbytes h => ?_, fun s f hindex => ⟨?_, count_mul_formatWidth_le s.count f⟩⟩
  · rcases Nat.lt_or_ge s.opa.toNat s.count.val with hindex | hindex
    · cases hf : formatOf s.fmt with
      | some f => exact exec_decode_congr hf hindex (hbytes f hf) h
      | none =>
        have hfmt := formatOf_eq_none_iff.mp hf
        rw [exec_decode_of_unrecognised hindex hfmt] at h
        cases h
        exact exec_decode_of_unrecognised (s := s.setBuf m) hindex hfmt
    · rw [decodeIndexAtOrPastCountFails s hindex] at h
      cases h
      exact decodeIndexAtOrPastCountFails (s.setBuf m) hindex
  · rw [← Nat.succ_mul]
    exact Nat.mul_le_mul_right _ hindex

end Sys2Proof.Machine

/-! ### Control registers at the port (20_memory.md R53 to R57) -/

namespace Sys2Proof.Machine

/-- The offsets of 20_memory.md R51's table are read back by the address map. -/
theorem ctrlRegAt_ctrlOffset (r : CtrlReg) : ctrlRegAt (ctrlOffset r) = some r := by
  cases r with
  | bound k => cases k <;> rfl
  | _ => rfl

theorem ctrlOffset_lt (r : CtrlReg) : ctrlOffset r < 256 := by
  have hsome : (ctrlRegAt (ctrlOffset r)).isSome = true := by rw [ctrlRegAt_ctrlOffset]; rfl
  have := ctrlRegAt_isSome.mp hsome
  omega

/-- A 32-bit write at the offset of a control register, as a step. -/
theorem step_write_ctrlOffset (r : CtrlReg) {s : State} {rest : List HostEvent} {off : Nat} {v : Word}
    (hoff : off = ctrlOffset r) (hport : s.port = .write (s.params.base + off) .w32 v :: rest) :
    step s = writeReg r v (s.setPort rest) := by
  subst hoff
  exact step_writeReg (ctrlRegAt_ctrlOffset r) hport

/-- A 32-bit read at the offset of a control register, as a step. -/
theorem step_read_ctrlOffset (r : CtrlReg) {s : State} {rest : List HostEvent} {off : Nat}
    (hoff : off = ctrlOffset r) (hport : s.port = .read (s.params.base + off) .w32 :: rest) :
    step s = .next ((s.setPort rest).respond (.readData (readReg s r))) := by
  subst hoff
  have htarget : regTarget (ctrlOffset r) .w32 = some r := ctrlRegAt_ctrlOffset r
  rw [step_read (ctrlOffset_lt r) hport, readResponse, htarget]
  rfl

/-- A CMD write completes, and stores the word whatever the command does. -/
theorem runCommand_exec (v : Word) (s : State) :
    ∃ t, runCommand v s = .next t ∧ t.cmd = v ∧
      ∀ i, decodeWord v = some i → exec i (s.setCmd v) = .next t := by
  obtain ⟨result, err, hrun, -⟩ := runCommand_next v s
  exact ⟨_, hrun, rfl, fun i hdecode => by rw [← hrun, runCommand_of_decodeWord s hdecode]⟩

/-- Settles O39: the offset names the register, which the write stores in and the read returns. -/
theorem controlRegisterAccess : Obligations.ControlRegisterAccess := by
  refine ⟨fun s rest off v hport => ?_, fun s rest off hport => ?_⟩
  · have hwrite (r : CtrlReg) (hoff : off = ctrlOffset r) := step_write_ctrlOffset r hoff hport
    refine ⟨hwrite .opa, hwrite .opb, hwrite .modeFmt, fun h => ⟨clampCount v, rfl, hwrite .modeCount h⟩,
      hwrite .modeDec, hwrite (.bound .rawMin), hwrite (.bound .rawMax), hwrite (.bound .pctMin),
      hwrite (.bound .pctMax), hwrite (.bound .siMin), hwrite (.bound .siMax), fun h => ?_⟩
    rw [hwrite .cmd h]
    exact runCommand_exec v _
  · have hread (r : CtrlReg) (hoff : off = ctrlOffset r) := step_read_ctrlOffset r hoff hport
    have hstatus : statusWord s.err = 0#28 ++ s.err := BitVec.setWidth_eq_append (by decide)
    have hfmt : s.fmt.setWidth 32 = 0#29 ++ s.fmt := BitVec.setWidth_eq_append (by decide)
    rw [← hstatus, ← hfmt]
    exact ⟨hread .cmd, hread .opa, hread .opb, hread .result, hread .status, hread .modeFmt,
      hread .modeCount, hread .modeDec, hread (.bound .rawMin), hread (.bound .rawMax),
      hread (.bound .pctMin), hread (.bound .pctMax), hread (.bound .siMin), hread (.bound .siMax)⟩

/-- An access not admitted by R52 reaches neither a control register nor the buffer. -/
theorem targets_of_not_admitted {off : Nat} {n : Width} (h : ¬ Admitted off (widthBytes n)) :
    regTarget off n = none ∧ bufTarget off n = none := by
  rw [regTarget_eq_none, bufTarget_eq_none]
  refine ⟨?_, fun hbuf => h (.inr hbuf)⟩
  rintro ⟨rfl, hreg⟩
  exact h (.inl ⟨rfl, hreg⟩)

/-- Settles O41: the access reaches nothing, and the port answers with a bus error. -/
theorem unadmittedAccessIsABusError : Obligations.UnadmittedAccessIsABusError := by
  intro s rest off n v hlt hnot
  obtain ⟨hreg, hbuf⟩ := targets_of_not_admitted hnot
  refine ⟨fun hport => ?_, fun hport => ?_⟩
  · rw [step_write hlt hport, hostWrite, hreg, hbuf]
    rfl
  · rw [step_read hlt hport, readResponse, hreg, hbuf]
    rfl

theorem eq_w32_of_widthBytes {n : Width} (h : widthBytes n = 4) : n = .w32 := by
  cases n with
  | w32 => rfl
  | _ => exact absurd h (by decide)

/-- A narrow access below the buffer is not admitted (20_memory.md R52). -/
theorem not_admitted_of_narrow {off : Nat} {n : Width} (hn : n ≠ .w32) (hoff : off < 0x40) :
    ¬ Admitted off (widthBytes n) := by
  rintro (⟨hfour, -⟩ | ⟨-, hbuf, -⟩)
  · exact hn (eq_w32_of_widthBytes hfour)
  · omega

/-- Settles O40: a 32-bit write is rejected by the register, and a narrower one is not admitted at all. -/
theorem readOnlyRegistersRejectWrites : Obligations.ReadOnlyRegistersRejectWrites := by
  refine ⟨fun s rest off n v hoff hport => ?_, fun s rest off hoff hport => ?_⟩
  · by_cases hn : n = .w32
    · subst hn
      rcases hoff with hresult | hstatus
      · exact step_write_ctrlOffset .result hresult hport
      · exact step_write_ctrlOffset .status hstatus hport
    · exact (unadmittedAccessIsABusError s rest off n v (by omega)
        (not_admitted_of_narrow hn (by omega))).1 hport
  · rcases hoff with hresult | hstatus
    · exact ⟨_, step_read_ctrlOffset .result hresult hport⟩
    · exact ⟨_, step_read_ctrlOffset .status hstatus hport⟩

/-- An address of the window has an offset in it (20_memory.md R50). -/
theorem exists_offset_of_inWindow {p : Params} {addr : Nat} (h : InWindow p addr) :
    ∃ off, off < 256 ∧ addr = p.base + off := by
  obtain ⟨hlow, hhigh⟩ := h
  exact ⟨addr - p.base, Nat.sub_lt_left_of_lt_add hlow hhigh, (Nat.add_sub_cancel' hlow).symm⟩

/-- A read of an address of the window, as a step; what is pending at the port is no part of the answer. -/
theorem step_read_of_inWindow {s : State} {rest : List HostEvent} {addr : Nat} {n : Width}
    (hwindow : InWindow s.params addr) (hport : s.port = .read addr n :: rest) :
    step s = .next ((s.setPort rest).respond (readResponse (addr - s.params.base) n s)) := by
  obtain ⟨off, hlt, rfl⟩ := exists_offset_of_inWindow hwindow
  rw [Nat.add_sub_cancel_left]
  exact step_read hlt hport

/-- Settles O44: the step changes the port and the answer only, and the next answer depends on neither. -/
theorem readsHaveNoSideEffects : Obligations.ReadsHaveNoSideEffects := by
  intro s rest addr n hwindow
  refine ⟨fun hport => step_read_of_inWindow hwindow hport, fun hport => ?_⟩
  exact ⟨_, _, rfl, step_read_of_inWindow hwindow hport, rfl, rfl, step_read_of_inWindow hwindow rfl⟩

/-- One step serves the first event. -/
theorem step_of_port {s : State} {ev : HostEvent} {rest : List HostEvent} (hport : s.port = ev :: rest) :
    step s = serve ev (s.setPort rest) := by
  rw [step, hport]

/-- Settles O47: the address has no offset in the window. -/
theorem accessOutsideTheWindowFaults : Obligations.AccessOutsideTheWindowFaults := by
  intro s rest addr n v houtside hport
  have hnone : offsetOf (s.setPort rest).params addr = none := offsetOf_eq_none.mpr houtside
  rcases hport with hwrite | hread
  · rw [step_of_port hwrite, serve, hnone]
  · rw [step_of_port hread, serve, hnone]

/-- Every event replaces the last answer, and none reads it. -/
theorem serve_response (ev : HostEvent) (s : State) (r : Option BusResponse) :
    serve ev { s with response := r } = serve ev s := rfl

/-- Settles O53: the event the step serves replaces the answer before anything could read it. -/
theorem earlierAnswersAreNoInput : Obligations.EarlierAnswersAreNoInput := by
  intro s r hport
  obtain ⟨ev, rest, hcons⟩ := List.exists_cons_of_ne_nil hport
  rw [step_of_port hcons, step_of_port (s := { s with response := r }) hcons]
  exact serve_response ev (s.setPort rest) r

end Sys2Proof.Machine

/-! ### Buffer accesses at the port (20_memory.md R56) -/

namespace Sys2Proof.Machine

theorem leValue_lt (bs : List Byte) : leValue bs < 2 ^ (8 * bs.length) := by
  induction bs with
  | nil => decide
  | cons b bs ih =>
    have hb := b.isLt
    rw [leValue, List.length_cons, Nat.mul_succ, Nat.pow_add]
    omega

/-- Byte j of a list is byte j of the number it stands for. -/
theorem leValue_byte {bs : List Byte} {j : Nat} {b : Byte} (h : bs[j]? = some b) :
    leValue bs / 2 ^ (8 * j) % 2 ^ 8 = b.toNat := by
  induction bs generalizing j with
  | nil => cases h
  | cons c bs ih =>
    have hc := c.isLt
    cases j with
    | zero =>
      cases h
      rw [leValue, Nat.mul_zero, Nat.pow_zero, Nat.div_one]
      omega
    | succ j =>
      have htail : leValue (c :: bs) / 2 ^ 8 = leValue bs := by rw [leValue]; omega
      rw [Nat.mul_succ, Nat.add_comm, Nat.pow_add, ← Nat.div_div_eq_div_mul, htail]
      exact ih h

theorem laneWord_toNat {bs : List Byte} (h : bs.length ≤ 4) : (laneWord bs).toNat = leValue bs := by
  have hpow : 2 ^ (8 * bs.length) ≤ 2 ^ 32 := Nat.pow_le_pow_right (by decide) (by omega)
  exact Nat.mod_eq_of_lt (Nat.lt_of_lt_of_le (leValue_lt bs) hpow)

/-- Byte j travels in the lane of data bits [8j+7:8j]. -/
theorem extractLsb'_laneWord {bs : List Byte} {j : Nat} {b : Byte} (hlen : bs.length ≤ 4)
    (h : bs[j]? = some b) : (laneWord bs).extractLsb' (8 * j) 8 = b := by
  apply BitVec.eq_of_toNat_eq
  rw [BitVec.extractLsb'_toNat, laneWord_toNat hlen, Nat.shiftRight_eq_div_pow, leValue_byte h]

/-- The lanes of a data word, put together again, are the bits from `lo` up to the width. -/
theorem leValue_laneBytes (data : Word) (lo n : Nat) :
    leValue (laneBytes data lo n) = data.toNat / 2 ^ lo % 2 ^ (8 * n) := by
  induction n generalizing lo with
  | zero => rw [Nat.mul_zero, Nat.pow_zero, Nat.mod_one]; rfl
  | succ n ih =>
    rw [laneBytes, leValue, ih, BitVec.extractLsb'_toNat, Nat.shiftRight_eq_div_pow, Nat.pow_add 2 lo,
      ← Nat.div_div_eq_div_mul, Nat.mul_succ, Nat.add_comm (8 * n), Nat.pow_add, Nat.mod_mul]

theorem laneWord_laneBytes (data : Word) (n : Nat) :
    laneWord (laneBytes data 0 n) = BitVec.ofNat 32 (data.toNat % 2 ^ (8 * n)) := by
  rw [laneWord, leValue_laneBytes, Nat.pow_zero, Nat.div_one]

/-- The bytes of a buffer write, read back. -/
theorem bufRead_bufWrite {off : Nat} {bs : List Byte} {m : Memory} (hm : Memory.wf m = true)
    (h : off + bs.length ≤ 32) : bufRead (bufWrite m off bs) off bs.length = bs := by
  apply List.ext_getElem?
  intro j
  rw [bufRead_getElem?, readByte_bufWrite hm h, if_pos (Nat.le_add_right off j), Nat.add_sub_cancel_left]
  split
  next hj => rw [List.getElem?_eq_getElem hj, Option.getD_some]
  next hj => rw [List.getElem?_eq_none (Nat.le_of_not_lt hj)]

/-- A buffer write leaves every byte but those it covers. -/
theorem readByte_bufWrite_of_outside {off a : Nat} {bs : List Byte} {m : Memory} (hm : Memory.wf m = true)
    (h : off + bs.length ≤ 32) (hout : a < off ∨ off + bs.length ≤ a) :
    readByte (bufWrite m off bs) a = readByte m a := by
  rw [readByte_bufWrite hm h]
  split
  next hle => rw [List.getElem?_eq_none (by omega), Option.getD_none]
  next => rfl

section
variable {s : State} {rest : List HostEvent} {off : Nat} {n : Width}
  (ha : off % widthBytes n = 0) (hl : 0x40 ≤ off) (hh : off + widthBytes n ≤ 0x60)
include ha hl hh

/-- An admitted write of the buffer, as a step. -/
theorem step_write_buf {v : Word} (hport : s.port = .write (s.params.base + off) n v :: rest) :
    step s = .next { s with
      port := rest
      response := some .writeDone
      buf := bufWrite s.buf (off - 0x40) (laneBytes v 0 (widthBytes n)) } := by
  rw [step_write (by omega) hport, hostWrite, regTarget_of_buf hl, bufTarget_eq_some.mpr ⟨ha, hl, hh, rfl⟩]
  rfl

/-- An admitted read of the buffer, as a step. -/
theorem step_read_buf (hport : s.port = .read (s.params.base + off) n :: rest) :
    step s = .next { s with
      port := rest
      response := some (.readData (laneWord (bufRead s.buf (off - 0x40) (widthBytes n)))) } := by
  rw [step_read (by omega) hport, readResponse, regTarget_of_buf hl, bufTarget_eq_some.mpr ⟨ha, hl, hh, rfl⟩]
  rfl

end

/-- Settles O42: byte j of the data is byte j of the access, in both directions. -/
theorem bufferAccessUsesLittleEndianLanes : Obligations.BufferAccessUsesLittleEndianLanes := by
  intro s rest off n hinv ha hl hh
  refine ⟨fun v hport => ?_, fun hport => ?_⟩
  · have hin := laneBytes_inside v hl hh
    refine ⟨_, step_write_buf ha hl hh hport, fun j hj => ?_, fun a hout => ?_, rfl⟩
    · rw [readByte_bufWrite hinv.1 hin, if_pos (Nat.le_add_right _ j), Nat.add_sub_cancel_left,
        laneBytes_getElem?, if_pos hj, Nat.zero_add, Option.getD_some]
    · exact readByte_bufWrite_of_outside hinv.1 hin (by rwa [laneBytes_length])
  · have hlen := (bufRead_length s.buf (off - 0x40) (widthBytes n)).trans_le (widthBytes_le n)
    refine ⟨_, step_read_buf ha hl hh hport, fun j hj => ?_, ?_⟩
    · exact extractLsb'_laneWord hlen (by rw [bufRead_getElem?, if_pos hj])
    · have hlt := leValue_lt (bufRead s.buf (off - 0x40) (widthBytes n))
      rwa [bufRead_length, ← laneWord_toNat hlen] at hlt

/-- Settles O43: the read is served from the buffer the write left. -/
theorem bufferReadsBackWhatWasWritten : Obligations.BufferReadsBackWhatWasWritten := by
  intro s rest off n v hinv ha hl hh hport
  have hback := bufRead_bufWrite hinv.1 (laneBytes_inside v hl hh)
  rw [laneBytes_length] at hback
  have hwrite := run_succ (step_write_buf ha hl hh hport) 1
  have hread := hwrite.trans (run_succ (step_read_buf ha hl hh rfl) 0)
  rw [hback, laneWord_laneBytes] at hread
  exact ⟨_, hread, rfl, rfl⟩

end Sys2Proof.Machine

/-! ### Who writes what (10_state.md R34, section 5) -/

namespace Sys2Proof.Machine

/-- Beside a reset, only a write changes anything but the port and its answer. -/
theorem write_of_changed {α : Type} {f : State → α} (hport : ∀ s evs, f (s.setPort evs) = f s)
    (hanswer : ∀ s r, f (s.respond r) = f s) {s t : State} (hstep : step s = .next t)
    (hreset : s.port.head? ≠ some .reset) (hne : f t ≠ f s) :
    ∃ off n data rest, s.port = .write (s.params.base + off) n data :: rest ∧
      WriteEffect (s.setPort rest) off n data t := by
  rcases step_cases hstep with
    ⟨-, rfl⟩ | ⟨rest, hp, -⟩ | ⟨off, n, data, rest, -, hp, heffect⟩ | ⟨_, _, rest, -, -, rfl⟩
  · exact absurd rfl hne
  · exact absurd (by rw [hp]; rfl) hreset
  · exact ⟨off, n, data, rest, hp, heffect⟩
  · exact absurd ((hanswer _ _).trans (hport _ _)) hne

/-- Settles O45: of the writes, only that of CMD runs a command, and no other writes RESULT or ERR. -/
theorem onlyCommandsAndResetChangeResultOrErr : Obligations.OnlyCommandsAndResetChangeResultOrErr := by
  intro s t hstep hchanged
  by_cases hreset : s.port.head? = some .reset
  · obtain ⟨rest, hport⟩ := List.head?_eq_some_iff.mp hreset
    exact ⟨_, rest, hport, .inl rfl⟩
  · have hne : (t.result, t.err) ≠ (s.result, s.err) := by
      rw [Ne, Prod.mk.injEq, not_and_or]
      exact hchanged
    obtain ⟨off, n, data, rest, hport, heffect⟩ :=
      write_of_changed (f := fun s => (s.result, s.err)) (fun _ _ => rfl) (fun _ _ => rfl) hstep hreset hne
    refine ⟨_, rest, hport, .inr ⟨data, ?_⟩⟩
    cases heffect with
    | cmd v e hn ho he => rw [hn, ho, Nat.add_zero]
    | _ => exact absurd rfl hne

theorem eq_ctrlOffset_of_ctrlRegAt {off : Nat} {r : CtrlReg} (h : ctrlRegAt off = some r) :
    off = ctrlOffset r := by
  unfold ctrlRegAt at h
  split at h <;> cases h <;> rfl

theorem Bounds.get_set (b : Bounds) (k j : BoundSel) (v : Word) :
    (b.set k v).get j = if j = k then v else b.get j := by
  cases k <;> cases j <;> rfl

/-- A write of the window that changes a register the host can write is a 32-bit write at its offset. -/
theorem WriteEffect.readReg_changed {s t : State} {off : Nat} {n : Width} {data : Word} {r : CtrlReg}
    (heffect : WriteEffect s off n data t) (hwritable : r ∉ [CtrlReg.result, .status])
    (hne : readReg t r ≠ readReg s r) :
    n = .w32 ∧ off = ctrlOffset r ∧ (r ∉ [CtrlReg.modeFmt, .modeCount] → readReg t r = data) := by
  cases heffect with
  | cmd v e hn ho he =>
    cases r with
    | cmd => exact ⟨hn, ho, fun _ => rfl⟩
    | result | status => exact absurd (by decide) hwritable
    | _ => exact absurd rfl hne
  | opa hn ho =>
    cases r with
    | opa => exact ⟨hn, ho, fun _ => rfl⟩
    | _ => exact absurd rfl hne
  | opb hn ho =>
    cases r with
    | opb => exact ⟨hn, ho, fun _ => rfl⟩
    | _ => exact absurd rfl hne
  | modeFmt hn ho =>
    cases r with
    | modeFmt => exact ⟨hn, ho, fun h => absurd (by decide) h⟩
    | _ => exact absurd rfl hne
  | modeCount hn ho =>
    cases r with
    | modeCount => exact ⟨hn, ho, fun h => absurd (by decide) h⟩
    | _ => exact absurd rfl hne
  | modeDec hn ho =>
    cases r with
    | modeDec => exact ⟨hn, ho, fun _ => rfl⟩
    | _ => exact absurd rfl hne
  | bound k hn ho =>
    cases r with
    | bound j =>
      have hget : readReg ((s.setBound k data).respond .writeDone) (.bound j) =
          if j = k then data else readReg s (.bound j) := Bounds.get_set s.bound k j data
      by_cases hj : j = k
      · subst hj
        exact ⟨hn, eq_ctrlOffset_of_ctrlRegAt ho, fun _ => by rw [hget, if_pos rfl]⟩
      · exact absurd (by rw [hget, if_neg hj]) hne
    | _ => exact absurd rfl hne
  | busError | buf => exact absurd rfl hne

/-- A step that changes a register the host can write served a 32-bit write at its offset, or a reset. -/
theorem step_readReg_changed {s t : State} {r : CtrlReg} (hstep : step s = .next t)
    (hreset : s.port.head? ≠ some .reset) (hwritable : r ∉ [CtrlReg.result, .status])
    (hne : readReg t r ≠ readReg s r) :
    ∃ v, s.port.head? = some (.write (s.params.base + ctrlOffset r) .w32 v) ∧
      (r ∉ [CtrlReg.modeFmt, .modeCount] → readReg t r = v) := by
  obtain ⟨off, n, data, rest, hport, heffect⟩ :=
    write_of_changed (f := fun s => readReg s r) (fun _ _ => rfl) (fun _ _ => rfl) hstep hreset hne
  obtain ⟨rfl, rfl, hdata⟩ := heffect.readReg_changed hwritable hne
  exact ⟨data, by rw [hport]; rfl, hdata⟩

/-- A write of the window that changes a byte of the buffer covers it. -/
theorem WriteEffect.readByte_changed {s t : State} {off a : Nat} {n : Width} {data : Word}
    (heffect : WriteEffect s off n data t) (hwf : Memory.wf s.buf = true)
    (hne : readByte t.buf a ≠ readByte s.buf a) : off ≤ 0x40 + a ∧ 0x40 + a < off + widthBytes n := by
  cases heffect with
  | buf ha hl hh =>
    by_contra hout
    refine hne (readByte_bufWrite_of_outside hwf (laneBytes_inside data hl hh) ?_)
    rw [laneBytes_length]
    omega
  | _ => exact absurd rfl hne

/-- A read of MODE_FMT loses none of its three bits (10_state.md R26). -/
theorem fmt_eq_of_readReg_eq {s t : State} (h : readReg t .modeFmt = readReg s .modeFmt) : t.fmt = s.fmt := by
  have hinjective : ∀ x y : BitVec 3, x.setWidth 32 = y.setWidth 32 → x = y := by decide
  exact hinjective _ _ h

/-- A read of MODE_COUNT gives its value, which is at most 8 (10_state.md R27). -/
theorem count_eq_of_readReg_eq {s t : State} (h : readReg t .modeCount = readReg s .modeCount) :
    t.count = s.count := by
  have hinjective : ∀ c d : Fin 9, BitVec.ofNat 32 c.val = BitVec.ofNat 32 d.val → c = d := by decide
  exact hinjective _ _ h

/-- Settles O46: a register is changed at its own offset only, and a byte by a write that covers it. -/
theorem inputsChangeOnlyByTheirOwnWrites : Obligations.InputsChangeOnlyByTheirOwnWrites := by
  intro s t hinv hstep hreset
  have hreg {r : CtrlReg} := step_readReg_changed (r := r) hstep hreset
  have hword {r : CtrlReg} (hwritable : r ∉ [CtrlReg.result, .status])
      (hwhole : r ∉ [CtrlReg.modeFmt, .modeCount]) (hne : readReg t r ≠ readReg s r) :
      s.port.head? = some (.write (s.params.base + ctrlOffset r) .w32 (readReg t r)) := by
    obtain ⟨v, hhead, hstored⟩ := hreg hwritable hne
    rw [hhead, hstored hwhole]
  refine ⟨hword (r := .cmd) (by decide) (by decide), hword (r := .opa) (by decide) (by decide),
    hword (r := .opb) (by decide) (by decide), fun hne => ?_, fun hne => ?_,
    hword (r := .modeDec) (by decide) (by decide), hword (r := .bound .rawMin) (by decide) (by decide),
    hword (r := .bound .rawMax) (by decide) (by decide), hword (r := .bound .pctMin) (by decide) (by decide),
    hword (r := .bound .pctMax) (by decide) (by decide), hword (r := .bound .siMin) (by decide) (by decide),
    hword (r := .bound .siMax) (by decide) (by decide), fun a hne => ?_⟩
  · obtain ⟨v, hhead, -⟩ := hreg (r := .modeFmt) (by decide) (mt fmt_eq_of_readReg_eq hne)
    exact ⟨v, hhead⟩
  · obtain ⟨v, hhead, -⟩ := hreg (r := .modeCount) (by decide) (mt count_eq_of_readReg_eq hne)
    exact ⟨v, hhead⟩
  · obtain ⟨off, n, data, rest, hport, heffect⟩ :=
      write_of_changed (f := fun s => readByte s.buf a) (fun _ _ => rfl) (fun _ _ => rfl) hstep hreset hne
    obtain ⟨hlow, hhigh⟩ := heffect.readByte_changed hinv.1 hne
    exact ⟨off, n, data, by rw [hport]; rfl, hlow, hhigh⟩

end Sys2Proof.Machine

/-! ### Runs (60_exceptions.md R210, 30_encoding.md R89) -/

namespace Sys2Proof.Machine

/-- With no event pending a step changes nothing (log entry 6). -/
theorem step_of_port_nil {s : State} (hport : s.port = []) : step s = .next s := by
  rw [step, hport]

theorem WriteEffect.port_eq {s t : State} {off : Nat} {n : Width} {data : Word}
    (heffect : WriteEffect s off n data t) : t.port = s.port := by
  cases heffect <;> rfl

/-- A step whose event reaches FXC answers next, and takes that event from the port. -/
theorem step_of_reaches {s : State} {ev : HostEvent} {rest : List HostEvent} (hport : s.port = ev :: rest)
    (hreaches : Reaches s.params ev) : ∃ t, step s = .next t ∧ t.port = rest := by
  cases ev with
  | reset => exact ⟨_, step_reset hport, rfl⟩
  | read addr n => exact ⟨_, step_read_of_inWindow hreaches hport, rfl⟩
  | write addr n data =>
    obtain ⟨off, hlt, rfl⟩ := exists_offset_of_inWindow hreaches
    obtain ⟨t, ht, heffect⟩ := hostWrite_next off n data (s.setPort rest)
    exact ⟨t, (step_write hlt hport).trans ht, heffect.port_eq⟩

/-- Settles O52: each step takes one of the events and keeps the base, so the events left still reach
FXC. -/
theorem runsInsideTheWindowNeverStop : Obligations.RunsInsideTheWindowNeverStop := by
  intro k
  induction k with
  | zero => exact fun s _ => ⟨s, rfl⟩
  | succ k ih =>
    intro s hreaches
    cases hport : s.port with
    | nil =>
      rw [run_succ (step_of_port_nil hport)]
      exact ih s hreaches
    | cons ev rest =>
      rw [hport, List.forall_mem_cons] at hreaches
      obtain ⟨hfirst, hlater⟩ := hreaches
      obtain ⟨t, hstep, hrest⟩ := step_of_reaches hport hfirst
      rw [run_succ hstep]
      apply ih t
      rwa [step_params hstep, hrest]

/-- The host's `w REG, V`, as a step (30_encoding.md R88). -/
theorem step_asmWriteReg (r : CtrlReg) {s : State} {rest : List HostEvent} {v : Word}
    (hport : s.port = asmWriteReg s.params r v :: rest) : step s = writeReg r v (s.setPort rest) :=
  step_write_ctrlOffset r rfl hport

/-- The host's `w CMD, <word>`, as a step (30_encoding.md R88). -/
theorem step_asmCommand {s : State} {rest : List HostEvent} {i : Instr}
    (hport : s.port = asmCommand s.params i :: rest) :
    step s = exec i { s with port := rest, response := some .writeDone, cmd := encode i } :=
  stepRunsTheDecodedCommand s rest (encode i) i hport (decodeWord_encode i)

/-- The two operand writes and the command that `cvt.f2x` and `cvt.x2f` expand to, as a run. -/
theorem run_operands_command {s t : State} {rest : List HostEvent} {i : Instr} {a d : Word}
    (hport : s.port = asmWriteReg s.params .opa a :: asmWriteReg s.params .opb d :: asmCommand s.params i :: rest)
    (hexec : exec i { s with port := rest, response := some .writeDone, opa := a, opb := d, cmd := encode i } =
      .next t) : Sys2Proof.core.run 3 s = .next t := by
  rw [run_succ (step_asmWriteReg .opa hport), run_succ (step_asmWriteReg .opb rfl),
    run_succ ((step_asmCommand rfl).trans hexec), run_zero]

/-- The three register writes that `setmode` expands to, as a run. -/
theorem run_setmode {s : State} {rest : List HostEvent} {f c d : Word}
    (hport : s.port =
      asmWriteReg s.params .modeFmt f :: asmWriteReg s.params .modeCount c ::
        asmWriteReg s.params .modeDec d :: rest) :
    Sys2Proof.core.run 3 s = .next { s with
      port := rest, response := some .writeDone, fmt := f.extractLsb' 0 3, count := clampCount c, dec := d } := by
  rw [run_succ (step_asmWriteReg .modeFmt hport), run_succ (step_asmWriteReg .modeCount rfl),
    run_succ (step_asmWriteReg .modeDec rfl), run_zero]
  simp only [State.respond, State.setPort, State.setFmt, State.setCount, State.setDec]

/-- Settles O54: the writes store the operands or the mode in turn, and the command converts them. -/
theorem pseudoInstructionsRunAsTheyExpand : Obligations.PseudoInstructionsRunAsTheyExpand := by
  refine fun s rest => ⟨fun bits d hport => ?_, fun v d hport => ?_, fun f c d hport => ?_⟩
  · exact run_operands_command hport (exec_f2x _)
  · rw [cvtX2f, enc32_toInt_self] at hport
    exact run_operands_command hport (exec_x2f _)
  · exact ⟨clampCount c, rfl, run_setmode hport⟩

end Sys2Proof.Machine
